-- ==== Sys2Proof/Word.lean ====
section
/-! DEFINITION. Word.lean: the word types of the block and the signed reading of a 16-bit pattern
(spec 00_scope.md R13 and R15, 30_encoding.md R51 and R55). -/

namespace Sys2Proof

/-- A request word (R51): 32 bits, moved whole across the interface (R42). -/
abbrev Word := BitVec 32

/-- The 16-bit operand field `ARG` of a request word (R51, R53). -/
abbrev Arg := BitVec 16

/-- A response word (R55): 16 bits, moved whole across the interface (R42). -/
abbrev Response := BitVec 16

/-- The 16-bit pattern one table entry holds (R22, R37); its value is the two's complement reading
`BitVec.toInt` (R15 `sext_16`). -/
abbrev Sample := BitVec 16

end Sys2Proof
end

