-- ==== Sys2Proof/Config.lean ====
section
/-! DEFINITION. Config.lean: what an implementation of the block fixes at elaboration
(spec 00_scope.md R7 to R14, 70_reset_and_hazards.md R114 and R123). The constants that are computed
from it stand in Machine/Params.lean. -/

namespace Sys2Proof

/-- `TABLE_MODE` (R12): when the table's values are fixed. -/
inductive TableMode where
  /-- STATIC: literal constants, available from reset on (R24). -/
  | static
  /-- GENERATED: filled once by the first TINIT after reset (R26). -/
  | generated
  deriving DecidableEq, Repr

/-- A configuration. R9: "A model's configuration type contains only legal configurations", so the
check on the widths is a field; both widths are at least 0 by their type. -/
structure Config where
  /-- `W_IDX` (R7), the width of the angle's index field. -/
  wIdx : Nat
  /-- `W_INTERP` (R8), the width of the angle's interpolation field. -/
  wInterp : Nat
  /-- `ROUND_EN` (R11), the optional pre-rounding step. -/
  roundEn : Bool
  /-- `TABLE_MODE` (R12). -/
  tableMode : TableMode
  /-- R9: "`W_IDX + W_INTERP <= 12`". -/
  legal : wIdx + wInterp ≤ 12
  deriving DecidableEq, Repr

/-- The default configuration: `W_IDX = 4` (R7), `W_INTERP = 8` (R8), `ROUND_EN = 1` (R11),
`TABLE_MODE = STATIC` (R12). -/
def Config.default : Config := ⟨4, 8, true, .static, by decide⟩

/-- The parameter `RESET_KIND` (R114): whether reset is synchronous, and its polarity. -/
structure ResetKind where
  synchronous : Bool
  activeHigh : Bool
  deriving DecidableEq, Repr, Inhabited

/-- `LATENCY` (R14), an open parameter: a natural number nothing is known of. "No rule of this spec
depends on it", and nothing in this model reads it. DEDUCED (log 8), safe. -/
opaque Config.latency : Nat

/-- `RESET_KIND` (R114), an open parameter. "No rule depends on it", and nothing in this model
reads it. DEDUCED (log 8), safe. -/
opaque Config.resetKind : ResetKind

end Sys2Proof
end

