-- ==== Sys2Proof/Machine/Params.lean ====
section
/-! DEFINITION. Machine/Params.lean: the constants computed from the configuration
(spec 00_scope.md R10, R11, R13) and the elaboration check on the widths (R9). -/

namespace Sys2Proof.Machine

/-- `N = 2^W_IDX` (R10), the number of table intervals in a quadrant. -/
def numIntervals (cfg : Config) : Nat := 2 ^ cfg.wIdx

/-- `TABLE_SIZE = N + 1` (R10), the number of table entries. -/
def tableSize (cfg : Config) : Nat := numIntervals cfg + 1

/-- `OFF_IDX = 12 - W_IDX` (R10), the lowest bit of the angle's index field. -/
def offIdx (cfg : Config) : Nat := 12 - cfg.wIdx

/-- `OFF_INTERP = OFF_IDX - W_INTERP` (R10), the lowest bit of the angle's interpolation field. -/
def offInterp (cfg : Config) : Nat := offIdx cfg - cfg.wInterp

/-- `RCONST` (R11), the rounding constant. -/
def rconst (cfg : Config) : Nat :=
  if cfg.roundEn = true ∧ 0 < offInterp cfg then 2 ^ (offInterp cfg - 1) else 0

/-- One full turn in angle units (R13): angle arithmetic is modulo `2^14 = 0x4000`. -/
def fullTurn : Nat := 0x4000

/-- Elaboration (R9): two integer widths give a configuration exactly when they are legal; every
other pair "is refused at elaboration and has no behaviour". -/
def elaborate (wIdx wInterp : Int) (roundEn : Bool) (tableMode : TableMode) : Option Config :=
  if h : 0 ≤ wIdx ∧ 0 ≤ wInterp ∧ wIdx + wInterp ≤ 12 then
    some ⟨wIdx.toNat, wInterp.toNat, roundEn, tableMode, by omega⟩
  else none

end Sys2Proof.Machine
end

