-- ==== Sys2Proof/Syntax.lean ====
section
/-! DEFINITION. Syntax.lean: the four requests of the block, one constructor for each row of
spec/opcode_table.json (spec 30_encoding.md R52). -/

namespace Sys2Proof

/-- A request (R52, R56). The operand of SINE and of TLOOKUP is the 16-bit field ARG (R53);
TSIZE and TINIT have none. -/
inductive Instr where
  /-- SINE (R81): the sine of the angle `angle`. -/
  | sine (angle : Arg)
  /-- TLOOKUP (R90): the table entry with index `index`. -/
  | tlookup (index : Arg)
  /-- TSIZE (R91): the number of table entries. -/
  | tsize
  /-- TINIT (R92 and R93): fill the table. -/
  | tinit
  deriving DecidableEq, Repr

end Sys2Proof
end

