-- ==== Sys2Proof/WellFormed.lean ====
section
/-! DEFINITION. WellFormed.lean: which requests are well formed, and which index a TLOOKUP may have
in a configuration (spec 30_encoding.md R53, R63). The checks on the widths of a configuration stand
in Machine/Params.lean (`elaborate`, R9), those on an assembler line in Machine/Assembler.lean. -/

namespace Sys2Proof

/-- Every request term is well formed: the operand's type is the 16-bit field, and R53 says of SINE
"Every 16-bit value is accepted" and gives every 16-bit TLOOKUP index a meaning (an entry, or a
fault); TSIZE and TINIT have no operand to check. -/
def Instr.wellFormed (i : Instr) : Bool :=
  match i with
  | .sine _ => true
  | .tlookup _ => true
  | .tsize => true
  | .tinit => true

/-- R63: of the TLOOKUP words, those with an index from 0 to N are in range; every other request is
always in range. -/
def Instr.inRange (cfg : Config) (i : Instr) : Bool :=
  match i with
  | .sine _ => true
  | .tlookup index => decide (index.toNat ≤ Machine.numIntervals cfg)
  | .tsize => true
  | .tinit => true

end Sys2Proof
end

