-- ==== Sys2Proof/Decode.lean ====
section
/-! DEFINITION. Decode.lean: from request words to requests and back (spec 30_encoding.md R51, R52,
R54, R56, R64), written from the request format's table: `RSVD = w[31:18]`, `OP = w[17:16]`,
`ARG = w[15:0]`. The block has no byte interface (20_memory.md R42), so a word decodes whole. -/

namespace Sys2Proof

/-- Why a word is illegal (R54). -/
inductive Illegal where
  /-- RSVD is not 0. -/
  | reservedBits
  /-- OP is 2 or 3 and ARG is not 0. -/
  | operandBits
  deriving DecidableEq, Repr

/-- `w[31:18]`, the reserved field (R51). -/
def rsvdField (w : Word) : BitVec 14 := w.extractLsb' 18 14

/-- `w[17:16]`, the operation (R51). -/
def opField (w : Word) : BitVec 2 := w.extractLsb' 16 2

/-- `w[15:0]`, the operand (R51). -/
def argField (w : Word) : Arg := w.extractLsb' 0 16

/-- Decode (R56): total on 32-bit words; every word is one request or illegal. -/
def decode (w : Word) : Except Illegal Instr :=
  if rsvdField w ≠ 0#14 then .error .reservedBits
  else if opField w = 0#2 then .ok (.sine (argField w))
  else if opField w = 1#2 then .ok (.tlookup (argField w))
  else if argField w ≠ 0#16 then .error .operandBits
  else if opField w = 2#2 then .ok .tsize
  else .ok .tinit

/-- A request word with RSVD = 0 (R51): `(OP << 16) | ARG` (R64). -/
def requestWord (op : BitVec 2) (arg : Arg) : Word := op.setWidth 32 <<< 16 ||| arg.setWidth 32

/-- Encode (R52, R64): the word of a request. -/
def encode (i : Instr) : Word :=
  match i with
  | .sine angle => requestWord 0#2 angle
  | .tlookup index => requestWord 1#2 index
  | .tsize => requestWord 2#2 0#16
  | .tinit => requestWord 3#2 0#16

/-- The request word whose bits, numbered as spec/opcode_table.json numbers them, are those of `w`
below `nbits`, and 0 above. Every request is one 32-bit word (R61). -/
def tableWord (nbits w : Nat) : Word := BitVec.ofNat 32 (w % 2 ^ nbits)

/-- The request the decoder reads from a word given by its bits as spec/opcode_table.json numbers
them; none where the word is illegal. -/
def decodeTableWord (nbits w : Nat) : Option Instr :=
  match decode (tableWord nbits w) with
  | .ok i => some i
  | .error _ => none

end Sys2Proof
end

