-- ==== Sys2Proof/Machine/State.lean ====
section
/-! DEFINITION. Machine/State.lean: the state of the block (spec 10_state.md R33), the host's side of
its interface (30_encoding.md R50), why a step can stop, and the state after reset
(70_reset_and_hazards.md R115). -/

namespace Sys2Proof.Machine

/-- The fault codes (60_exceptions.md R100). -/
inductive FaultCode where
  /-- Code 1, an illegal request word (R101). -/
  | rsvdEnc
  /-- Code 2, a table read in generated mode before TINIT (R102). -/
  | notReady
  /-- Code 3, a TLOOKUP index above N (R103). -/
  | lookupRange
  /-- Code 4, a second TINIT in generated mode (R104). -/
  | reinit
  deriving DecidableEq, Repr

/-- What the outside presents to the block: a word on the request input, or an assertion of the
reset input (R50, R114). A reset is one event without duration, and what is listed after it is presented
after it; no input is a request sent while reset is asserted, of which R124 says nothing: DESIGN CHOICE
(log 13), unsafe of a host that sends requests then. -/
inductive HostInput where
  | request (w : Word)
  | reset
  deriving DecidableEq, Repr

/-- The table store `T` (R22) as its listed entries: pairs of an index and the 16-bit pattern it
holds, indexes strictly rising. An index that is not listed reads as its reset contents
(`Memory.unlisted` in Machine/Ops.lean): `TV(i)` in static mode, no value in generated mode (R115).
DESIGN CHOICE (log 1), safe: the same readings as a store of N + 1 optional samples. -/
abbrev Memory := List (Nat × Sample)

/-- The state of the block (R33): the table, READY, FAULT, rp and the configuration; and, at the
interface (R50), what the host has still to present and the responses since reset. -/
structure State where
  /-- The configuration (R33, R123): a row of R33's table that nothing ever writes. DESIGN CHOICE
  (log 7), safe: held in the state, so that one machine is every legal configuration. -/
  cfg : Config
  /-- `T[0..N]` (R22). -/
  table : Memory
  /-- `READY` (R28). -/
  ready : Bool
  /-- `FAULT` (R29): none, or the code of the first fault since reset. -/
  fault : Option FaultCode
  /-- `rp` (R21), model only: the requests completed since reset. -/
  rp : Nat
  /-- Model only: what the host presents from now on, first to last (R19, R46, R50). DESIGN CHOICE
  (log 3), safe. -/
  inputs : List HostInput
  /-- Model only: the responses given since reset, first to last (R50, R124). DESIGN CHOICE
  (log 4), safe. -/
  responses : List Response
  deriving DecidableEq, Repr

/-- Why the machine stops. -/
inductive Fault where
  /-- Raised by `serve` (Machine/Serve.lean) in a state with FAULT set and no reset to come: "While
  FAULT != none the block accepts no request: it has no step" (R99). DEDUCED (log 5), safe: the spec
  gives no next state. -/
  | quiescent (code : FaultCode)
  deriving DecidableEq, Repr

/-- Why the model gives a request no meaning. -/
inductive Refusal where
  /-- Raised by an arm of `exec` whose request has no meaning yet; no arm is one. Safe. -/
  | notModelled (mnemonic : String)
  deriving DecidableEq, Repr

/-- The state after reset in a configuration (R115, R33): FAULT none, rp 0, READY 1 in static mode
and 0 in generated mode, every entry at its reset contents. No request is pending and no response
has been given: DESIGN CHOICE (log 3, log 4), unsafe only for a claim about the run from reset. -/
def State.resetOf (cfg : Config) : State where
  cfg := cfg
  table := []
  ready := decide (cfg.tableMode = .static)
  fault := none
  rp := 0
  inputs := []
  responses := []

/-- The state after reset in the default configuration (R7, R8, R11, R12). DESIGN CHOICE (log 7):
the machine's one reset state is that of the spec's defaults; unsafe for a claim about the reset state
taken to be about other configurations. -/
def State.reset : State := State.resetOf Config.default

end Sys2Proof.Machine
end

