-- ==== Sys2Proof/Machine/TableValue.lean ====
section
/-! DEFINITION. Machine/TableValue.lean: the table formula `TV` (spec 41_table_access.md R96),
`TV(i) = round(32767 * sin(i * (π/2) / N))`, as a constant that Lean's kernel evaluates.

Every table point of every legal configuration is one of the 4097 angles `k * π / 8192`,
`0 <= k <= 4096`, because `i / 2^W_IDX = (i * 2^(12 - W_IDX)) / 2^12`. The sine of such an angle is
computed in exact integer arithmetic scaled by `2^60`, by the power series of the sine to the term
`x^21 / 21!` in nested form. R96 says no value is within 0.00014 of a rounding tie; the error here
is below 0.0000001 after the scaling by 32767, so the rounded value is the spec's. DEDUCED (log 2),
unsafe where a value were wrong; Laws/RealSine.lean bounds the error against the real sine, and
`Obligations.TableIsTheRoundedSine` states the formula. -/

namespace Sys2Proof.Machine

/-- The scale of the fixed-point arithmetic: the number 1. -/
def fixOne : Nat := 2 ^ 60

/-- `π` in the fixed-point scale, rounded down. -/
def fixPi : Nat := 3622009729038561421

/-- The nested power series of `sin x / x` in `y = x^2`, from the `j`-th factor on, with `n` factors:
`1 - y/(2j(2j+1)) * (1 - y/((2j+2)(2j+3)) * (...))`. -/
def sinSeries (y : Nat) : Nat → Nat → Nat
  | 0, _ => fixOne
  | n + 1, j => fixOne - y * sinSeries y n (j + 1) / (fixOne * (2 * j * (2 * j + 1)))

/-- The angle `k * π / 8192` in the fixed-point scale. -/
def fixAngle (k : Nat) : Nat := fixPi * k / 8192

/-- `sin (k * π / 8192)` in the fixed-point scale, for `k <= 4096`. -/
def fixSin (k : Nat) : Nat :=
  fixAngle k * sinSeries (fixAngle k * fixAngle k / fixOne) 10 1 / fixOne

/-- `round(32767 * sin(k * π / 8192))`, for `k <= 4096` (R96 at `W_IDX = 12`). -/
def quarterSine (k : Nat) : Nat := (32767 * fixSin k + fixOne / 2) / fixOne

/-- `TV(i)` (R96), for `0 <= i <= N`: the value of table entry `i`. -/
def tableValue (cfg : Config) (i : Nat) : Int := quarterSine (i * 2 ^ (12 - cfg.wIdx))

end Sys2Proof.Machine
end

