-- ==== Sys2Proof/Machine/Ops.lean ====
section
/-! DEFINITION. Machine/Ops.lean: the operations the requests share: bit fields and `bits16`
(spec 00_scope.md R15), TableRead and TableWrite (20_memory.md R38, R39), raising a fault
(60_exceptions.md R99), completing with a response (30_encoding.md R57) and reset
(70_reset_and_hazards.md R115). -/

namespace Sys2Proof.Machine

/-- `v[lo + width - 1 : lo]` (R15); a field of width 0 has the value 0. -/
def bitField (v lo width : Nat) : Nat := v / 2 ^ lo % 2 ^ width

/-- `bits16(v)` (R15), the 16-bit two's complement pattern of `v`. Outside -32768 to 32767, where R15
defines nothing and where no request goes from a state of `State.Inv`, it is `v mod 2^16`: DESIGN
CHOICE (log 10), safe under that invariant. -/
def bits16 (v : Int) : BitVec 16 := BitVec.ofInt 16 v

/-! ### The table store -/

/-- What an entry that is not listed holds: its reset contents (R115), `TV(i)` in static mode (R24)
and no value in generated mode (R26). -/
def Memory.unlisted (cfg : Config) (i : Nat) : Option Int :=
  match cfg.tableMode with
  | .static => some (tableValue cfg i)
  | .generated => none

/-- The pattern listed for index `i`, if any. -/
def Memory.find (m : Memory) (i : Nat) : Option Sample :=
  match m with
  | [] => none
  | e :: rest => if e.1 = i then some e.2 else Memory.find rest i

/-- The listed entries without index `i`. -/
def Memory.erase (m : Memory) (i : Nat) : Memory :=
  match m with
  | [] => []
  | e :: rest => if e.1 = i then rest else e :: Memory.erase rest i

/-- The listed entries with `v` at index `i`, indexes still rising. -/
def Memory.insert (m : Memory) (i : Nat) (v : Sample) : Memory :=
  match m with
  | [] => [(i, v)]
  | e :: rest =>
    if e.1 = i then (i, v) :: rest
    else if i < e.1 then (i, v) :: e :: rest
    else e :: Memory.insert rest i v

/-- `TableRead(i)` (R38): the signed value entry `i` holds; none for an entry that holds no value
(R23) and outside the index space 0 to N (R35, R44). DEDUCED (log 9), safe. -/
def Memory.read (cfg : Config) (m : Memory) (i : Nat) : Option Int :=
  if i ≤ numIntervals cfg then
    match m.find i with
    | some v => some v.toInt
    | none => Memory.unlisted cfg i
  else none

/-- `TableWrite(i, v)` (R39): entry `i` then holds `v`. Writing what an unlisted entry holds takes
the entry off the list, so that equal tables are equal lists. Outside the index space, where R39
defines nothing and no request writes, it changes nothing: DESIGN CHOICE (log 9), safe. -/
def Memory.write (cfg : Config) (m : Memory) (i : Nat) (v : Int) : Memory :=
  if i ≤ numIntervals cfg then
    if Memory.unlisted cfg i = some (bits16 v).toInt then m.erase i else m.insert i (bits16 v)
  else m

/-- The canonical form of the table store: indexes strictly rising, all of them in the index space,
and no entry equal to what an unlisted index holds. -/
def Memory.wf (cfg : Config) (m : Memory) : Bool :=
  decide (m.Pairwise fun a b => a.1 < b.1) &&
    m.all fun e => decide (e.1 ≤ numIntervals cfg ∧ Memory.unlisted cfg e.1 ≠ some e.2.toInt)

/-- `TableWrite(i, TV(i))` for `i = 0` to `n - 1` in rising order (R93). -/
def Memory.fill (cfg : Config) (m : Memory) (n : Nat) : Memory :=
  match n with
  | 0 => m
  | k + 1 => Memory.write cfg (Memory.fill cfg m k) k (tableValue cfg k)

/-- `TableRead(i)` in a state. -/
def State.tableRead (s : State) (i : Nat) : Option Int := Memory.read s.cfg s.table i

/-- R102: a table read faults when `TABLE_MODE = GENERATED and READY = 0`. -/
def State.notReady (s : State) : Bool := decide (s.cfg.tableMode = .generated) && !s.ready

/-! ### How a request ends, and reset -/

/-- `raise Fault(code)` (R99): the request is aborted before any state change, no response is given,
and FAULT holds the code. -/
def raiseFault (code : FaultCode) (s : State) : State := { s with fault := some code }

/-- `resp <- v` and the end of the request: the response is given and rp advances by 1 (R57, R21). -/
def respond (v : Response) (s : State) : State :=
  { s with rp := s.rp + 1, responses := s.responses ++ [v] }

/-- Reset (R115), in any state, between two requests: DEDUCED (log 6), safe. What the host presents
afterwards is the host's (log 3), a word listed next meeting the block after the reset (log 13), and
the list of responses starts anew (log 4). -/
def takeReset (s : State) : State := { State.resetOf s.cfg with inputs := s.inputs }

/-- What is left of the host's inputs after the first reset among them. The requests before it meet
a faulted block, which accepts none of them (R99). DESIGN CHOICE (log 3): they are lost; unsafe of a
host that presents them again after the reset. -/
def awaitReset (inputs : List HostInput) : Option (List HostInput) :=
  match inputs with
  | [] => none
  | .request _ :: rest => awaitReset rest
  | .reset :: rest => some rest

/-- The number of a fault code (R100). -/
def FaultCode.number (c : FaultCode) : Nat :=
  match c with
  | .rsvdEnc => 1
  | .notReady => 2
  | .lookupRange => 3
  | .reinit => 4

end Sys2Proof.Machine
end

