-- ==== Sys2Proof/Machine/Flags.lean ====
section
/-! DEFINITION. Machine/Flags.lean: the two quadrant conditions (spec 40_sine.md R70). The block has
no stored flags (10_state.md R30): these are signals of one SINE request. -/

namespace Sys2Proof.Machine

/-- `FWD = ((q & 1) == 0)` (R70): the table is read forward. -/
def isForward (q : Nat) : Bool := q &&& 1 == 0

/-- `NEG = ((q & 2) != 0)` (R70): the result is negated. -/
def isNegative (q : Nat) : Bool := q &&& 2 != 0

end Sys2Proof.Machine
end

