-- ==== Sys2Proof/Machine/Operands.lean ====
section
/-! DEFINITION. Machine/Operands.lean: operand assembly (spec 30_encoding.md R58, R60) and the
quadrant_symmetry_reducer (40_sine.md R68 to R72). -/

namespace Sys2Proof.Machine

/-- `a` (R68): the operand, pre-rounded and reduced to a 14-bit angle. -/
def reduceAngle (cfg : Config) (arg : Arg) : Nat := (arg.toNat + rconst cfg) % fullTurn

/-- The quadrant field `q = a[13:12]` (R69). -/
def quadrantOf (a : Nat) : Nat := bitField a 12 2

/-- The index field `idx = a[OFF_IDX + W_IDX - 1 : OFF_IDX]` (R69). -/
def indexOf (cfg : Config) (a : Nat) : Nat := bitField a (offIdx cfg) cfg.wIdx

/-- The interpolation field `frac = a[OFF_INTERP + W_INTERP - 1 : OFF_INTERP]` (R69). -/
def fracOf (cfg : Config) (a : Nat) : Nat := bitField a (offInterp cfg) cfg.wInterp

/-- Index reflection (R71). -/
def reflect (cfg : Config) (fwd : Bool) (idx : Nat) : Nat :=
  if fwd then idx else numIntervals cfg - 1 - idx

/-- What the reducer hands on (R72): "the tuple `(ridx, frac, FWD, NEG)`". -/
structure Reduced where
  ridx : Nat
  frac : Nat
  fwd : Bool
  neg : Bool
  deriving DecidableEq, Repr

/-- The quadrant_symmetry_reducer on a 14-bit angle (R69 to R72). -/
def reducedOf (cfg : Config) (a : Nat) : Reduced where
  ridx := reflect cfg (isForward (quadrantOf a)) (indexOf cfg a)
  frac := fracOf cfg a
  fwd := isForward (quadrantOf a)
  neg := isNegative (quadrantOf a)

/-- The quadrant_symmetry_reducer on the operand of SINE (R68 to R72). -/
def reduce (cfg : Config) (arg : Arg) : Reduced := reducedOf cfg (reduceAngle cfg arg)

/-- The operand of TLOOKUP (R60): `zext(ARG)`, "neither masked nor reduced". -/
def lookupIndex (arg : Arg) : Nat := arg.toNat

end Sys2Proof.Machine
end

