-- ==== Sys2Proof/Machine/Interpolator.lean ====
section
/-! DEFINITION. Machine/Interpolator.lean: the linear_interpolator (spec 40_sine.md R75 to R79), on
mathematical integers (00_scope.md R15). Its signals are 32 bits signed and never overflow
(R76, R121), so the integers and the signals have the same values. DEDUCED (log 11), safe. -/

namespace Sys2Proof.Machine

/-- `delta = x2 - x1` (R75). -/
def deltaOf (x1 x2 : Int) : Int := x2 - x1

/-- `prod = delta * frac` (R76). -/
def prodOf (x1 x2 : Int) (frac : Nat) : Int := deltaOf x1 x2 * frac

/-- `shift = prod >> W_INTERP`, which is `floor(prod / 2^W_INTERP)` (R77, R16). -/
def shiftOf (cfg : Config) (x1 x2 : Int) (frac : Nat) : Int :=
  prodOf x1 x2 frac / 2 ^ cfg.wInterp

/-- `s0` (R78): the direction-dependent combine. -/
def combine (cfg : Config) (r : Reduced) (x1 x2 : Int) : Int :=
  if r.fwd then x1 + shiftOf cfg x1 x2 r.frac else x2 - shiftOf cfg x1 x2 r.frac

/-- `s` (R79): the signed result. -/
def interpolate (cfg : Config) (r : Reduced) (x1 x2 : Int) : Int :=
  if r.neg then -combine cfg r x1 x2 else combine cfg r x1 x2

end Sys2Proof.Machine
end

