-- ==== Sys2Proof/Machine/Sine.lean ====
section
/-! DEFINITION. Machine/Sine.lean: the meaning of SINE (spec 40_sine.md R81). -/

namespace Sys2Proof.Machine

/-- SINE (R81): both table reads (R73), the interpolation and the response (R80). R23 makes a read of
an entry that holds no value a NOT_READY fault; where the table is as R26 and R28 say, that is the
case of the first line alone. DEDUCED (log 9), safe. -/
def execSine (angle : Arg) (s : State) : Host.Outcome State Fault Refusal :=
  if s.notReady then .next (raiseFault .notReady s)
  else
    match s.tableRead (reduce s.cfg angle).ridx, s.tableRead ((reduce s.cfg angle).ridx + 1) with
    | some x1, some x2 =>
      .next (respond (bits16 (interpolate s.cfg (reduce s.cfg angle) x1 x2)) s)
    | _, _ => .next (raiseFault .notReady s)

end Sys2Proof.Machine
end

