-- ==== Sys2Proof/Machine/TableAccess.lean ====
section
/-! DEFINITION. Machine/TableAccess.lean: the meanings of TLOOKUP, TSIZE and TINIT
(spec 41_table_access.md R90 to R93). -/

namespace Sys2Proof.Machine

/-- TLOOKUP (R90): the range check comes before the table's state (60_exceptions.md R105). -/
def execTlookup (index : Arg) (s : State) : Host.Outcome State Fault Refusal :=
  if numIntervals s.cfg < lookupIndex index then .next (raiseFault .lookupRange s)
  else if s.notReady then .next (raiseFault .notReady s)
  else
    match s.tableRead (lookupIndex index) with
    | some v => .next (respond (bits16 v) s)
    | none => .next (raiseFault .notReady s)

/-- TSIZE (R91): `resp <- zext_16(N + 1)`, in every state of the table. -/
def execTsize (s : State) : Host.Outcome State Fault Refusal :=
  .next (respond (BitVec.ofNat 16 (tableSize s.cfg)) s)

/-- TINIT: no operation in static mode (R92); in generated mode it fills the table, once (R93). -/
def execTinit (s : State) : Host.Outcome State Fault Refusal :=
  match s.cfg.tableMode with
  | .static => .next (respond 0#16 s)
  | .generated =>
    if s.ready then .next (raiseFault .reinit s)
    else
      .next (respond 0#16
        { s with table := Memory.fill s.cfg s.table (tableSize s.cfg), ready := true })

end Sys2Proof.Machine
end

