-- ==== Sys2Proof/Machine/Dispatch.lean ====
section
/-! DEFINITION. Machine/Dispatch.lean: the meaning of each request, one arm for each constructor of
Instr (spec 30_encoding.md R57). -/

namespace Sys2Proof.Machine

def exec (i : Instr) (s : State) : Host.Outcome State Fault Refusal :=
  match i with
  | .sine angle => Sys2Proof.Machine.execSine angle s
  | .tlookup index => Sys2Proof.Machine.execTlookup index s
  | .tsize => Sys2Proof.Machine.execTsize s
  | .tinit => Sys2Proof.Machine.execTinit s

end Sys2Proof.Machine
end

