-- ==== Sys2Proof/Machine/Serve.lean ====
section
/-! DEFINITION. Machine/Serve.lean: one transaction of the block (spec 30_encoding.md R50, R57),
which Machine/Step.lean calls. -/

namespace Sys2Proof.Machine

/-- An accepted request word (R57): an illegal one faults with RSVD_ENC (R101), every other one is
performed. -/
def perform (w : Word) (s : State) : Host.Outcome State Fault Refusal :=
  match decode w with
  | .ok i => exec i s
  | .error _ => .next (raiseFault .rsvdEnc s)

/-- One transaction. A faulted block takes no request; the only step it has is the next reset (R99,
R108). Otherwise the block takes what the host presents next: a request (R57) or a reset (R115); while
nothing is presented it waits, and its state persists (R113): DESIGN CHOICE (log 3), safe. A reset is
one step without duration, and a word listed after it is served by the next step, in the state after
reset. What becomes of requests sent while reset is asserted R124 leaves open: DESIGN CHOICE (log 13),
unsafe of a host that sends them and lists them after the reset. -/
def serve (s : State) : Host.Outcome State Fault Refusal :=
  match s.fault with
  | some code =>
    match awaitReset s.inputs with
    | some rest => .next (takeReset { s with inputs := rest })
    | none => .fault (.quiescent code)
  | none =>
    match s.inputs with
    | [] => .next s
    | .reset :: rest => .next (takeReset { s with inputs := rest })
    | .request w :: rest => perform w { s with inputs := rest }

/-- The request word `w` presented next, before all other inputs (log 3). -/
def offer (w : Word) (s : State) : State := { s with inputs := .request w :: s.inputs }

end Sys2Proof.Machine
end

