-- ==== Sys2Proof/Machine/Step.lean ====
section
/-! DEFINITION. Machine/Step.lean: one step of the machine, one transaction of the block
(spec 30_encoding.md R50: "one step per request"). -/

namespace Sys2Proof.Machine

/-- One step (R57). -/
def step (s : State) : Host.Outcome State Fault Refusal := serve s

/-- `s` with one request word, given by its bits as spec/opcode_table.json numbers them, at the head
of what the host presents. The block fetches nothing (R49): the host presents its program from
outside (assumption log 3), and this stands for that. -/
def State.withFetchWord (s : State) (nbits w : Nat) : State := offer (tableWord nbits w) s

end Sys2Proof.Machine
end

