-- ==== Sys2Proof/Machine/Assembler.lean ====
section
/-! DEFINITION. Machine/Assembler.lean: the assembler of the block's requests (spec
30_encoding.md R64), with the pseudo-instructions SIND (R65) and SINEI (R66). It is the host's: "The
host computes this at assembly time; the block does not" (R65). -/

namespace Sys2Proof.Machine

/-- A line of source (R64 to R66): a mnemonic and its integer operand, whatever its value. -/
inductive SourceLine where
  | sine (angle : Int)
  | tlookup (index : Int)
  | tsize
  | tinit
  | sind (degrees : Int)
  | sinei (position : Int)
  deriving DecidableEq, Repr

/-- The operand ranges outside which the assembler refuses a line (R64, R65, R66). -/
def SourceLine.wellFormed (cfg : Config) (l : SourceLine) : Bool :=
  match l with
  | .sine angle => decide (0 ≤ angle ∧ angle ≤ 0xFFFF)
  | .tlookup index => decide (0 ≤ index ∧ index ≤ 0xFFFF)
  | .tsize => true
  | .tinit => true
  | .sind degrees => decide (0 ≤ degrees ∧ degrees ≤ 131071)
  | .sinei position => decide (0 ≤ position ∧ position ≤ 4 * numIntervals cfg)

/-- `((d * 0x4000) div 360) mod 2^16` (R65), for `d >= 0`. -/
def sindArg (d : Nat) : Arg := BitVec.ofNat 16 (d * 0x4000 / 360)

/-- `(i << OFF_IDX) mod 2^16` (R66), for `i >= 0`. -/
def sineiArg (cfg : Config) (i : Nat) : Arg := BitVec.ofNat 16 (i * 2 ^ offIdx cfg)

/-- The request a line stands for, pseudo-instructions expanded (R64 to R66); none where the
assembler refuses the line. -/
def SourceLine.expand (cfg : Config) (l : SourceLine) : Option Instr :=
  if l.wellFormed cfg then
    match l with
    | .sine angle => some (.sine (BitVec.ofInt 16 angle))
    | .tlookup index => some (.tlookup (BitVec.ofInt 16 index))
    | .tsize => some .tsize
    | .tinit => some .tinit
    | .sind degrees => some (.sine (sindArg degrees.toNat))
    | .sinei position => some (.sine (sineiArg cfg position.toNat))
  else none

/-- "Each line assembles to one word" (R64). -/
def SourceLine.assemble (cfg : Config) (l : SourceLine) : Option Word :=
  match l.expand cfg with
  | some i => some (encode i)
  | none => none

/-! ### The text of a line (R64): "mnemonic then operand", integers "decimal or `0x` hexadecimal",
"`;` starts a comment". What R64 leaves open of it (spaces and tabs, the case of hexadecimal digits, a
minus sign, a line with no request) is a DESIGN CHOICE (log 12), unsafe only for a claim about such
text. -/

/-- The value of a digit, in either base; upper and lower case alike. -/
def digitValue (c : Char) : Option Nat :=
  if '0' ≤ c ∧ c ≤ '9' then some (c.toNat - 48)
  else if 'a' ≤ c ∧ c ≤ 'f' then some (c.toNat - 87)
  else if 'A' ≤ c ∧ c ≤ 'F' then some (c.toNat - 55)
  else none

/-- The digits of a number in base `base`, after those whose value is `acc`. -/
def readDigits (base acc : Nat) (cs : List Char) : Option Nat :=
  match cs with
  | [] => some acc
  | c :: rest =>
    match digitValue c with
    | some d => if d < base then readDigits base (base * acc + d) rest else none
    | none => none

/-- An integer: decimal, or `0x` and hexadecimal digits, with an optional minus sign before a
decimal number (so that a negative operand is a line the range check refuses). -/
def readInteger (cs : List Char) : Option Int :=
  match cs with
  | [] => none
  | ['-'] => none
  | '-' :: c :: rest => (readDigits 10 0 (c :: rest)).map fun n => -(n : Int)
  | '0' :: 'x' :: c :: rest => (readDigits 16 0 (c :: rest)).map fun n => (n : Int)
  | c :: rest => (readDigits 10 0 (c :: rest)).map fun n => (n : Int)

/-- The words of a line, `cur` being the letters of the current word so far, last letter first. -/
def splitWords (cur : List Char) (cs : List Char) : List (List Char) :=
  match cs with
  | [] => if cur.isEmpty then [] else [cur.reverse]
  | c :: rest =>
    if c = ' ' ∨ c = '\t' then
      (if cur.isEmpty then splitWords [] rest else cur.reverse :: splitWords [] rest)
    else splitWords (c :: cur) rest

/-- The words of a line of text without its comment. -/
def lineWords (cs : List Char) : List (List Char) := splitWords [] (cs.takeWhile (· ≠ ';'))

/-- The line of source with these words: a mnemonic, and an operand where the request has one. -/
def readLine (words : List (List Char)) : Option SourceLine :=
  match words with
  | [m] =>
    if m = ['T', 'S', 'I', 'Z', 'E'] then some .tsize
    else if m = ['T', 'I', 'N', 'I', 'T'] then some .tinit
    else none
  | [m, n] =>
    match readInteger n with
    | none => none
    | some v =>
      if m = ['S', 'I', 'N', 'E'] then some (.sine v)
      else if m = ['T', 'L', 'O', 'O', 'K', 'U', 'P'] then some (.tlookup v)
      else if m = ['S', 'I', 'N', 'D'] then some (.sind v)
      else if m = ['S', 'I', 'N', 'E', 'I'] then some (.sinei v)
      else none
  | _ => none

/-- The words of a program's text, one request per line; a line with nothing before its comment
assembles to no word. None where the assembler refuses a line. -/
def assembleText (cfg : Config) (lines : List (List Char)) : Option (List Word) :=
  match lines with
  | [] => some []
  | l :: rest =>
    if (lineWords l).isEmpty then assembleText cfg rest
    else
      match readLine (lineWords l) with
      | none => none
      | some src =>
        match src.assemble cfg, assembleText cfg rest with
        | some w, some ws => some (w :: ws)
        | _, _ => none

end Sys2Proof.Machine
end

