-- ==== Sys2Proof/Safety.lean ====
section
/-! DEFINITION. Safety.lean: the terms claims are stated in: the invariant of a state, how one request
ends, and how a run is observed (spec 10_state.md R23 to R29, 60_exceptions.md R99,
70_reset_and_hazards.md R124). -/

namespace Sys2Proof.Machine

/-- The invariant of the block (R24, R26, R28): the table is in its canonical form; in static mode
READY is 1; while READY is 1 every entry of the index space holds its TV value; while it is 0 no entry
holds a value; rp counts the responses given since reset (R21). -/
structure State.Inv (s : State) : Prop where
  canonical : s.table.wf s.cfg = true
  staticReady : s.cfg.tableMode = .static → s.ready = true
  filled : s.ready = true → ∀ i ≤ numIntervals s.cfg, s.tableRead i = some (tableValue s.cfg i)
  unfilled : s.ready = false → ∀ i ≤ numIntervals s.cfg, s.tableRead i = none
  counted : s.rp = s.responses.length

/-- In state `s` the request `i` completes with response `v`, and changes nothing but rp and what the
host has been given (R57). -/
def Responds (s : State) (i : Instr) (v : Response) : Prop :=
  exec i s = .next { s with rp := s.rp + 1, responses := s.responses ++ [v] }

/-- In state `s` the request `i` raises `code`: it changes nothing but FAULT (R99). -/
def Raises (s : State) (i : Instr) (code : FaultCode) : Prop :=
  exec i s = .next { s with fault := some code }

/-- What the host presents next is the word `w`, to a block that is not faulted (R50: "The block
accepts a request only when it is idle and FAULT = none"). -/
def Accepts (s : State) (w : Word) (rest : List HostInput) : Prop :=
  s.fault = none ∧ s.inputs = .request w :: rest

/-- The state from which the block serves an accepted word: the word is no longer pending. -/
def State.taken (s : State) (rest : List HostInput) : State := { s with inputs := rest }

/-- What a run shows (R124): "the list of response words, in order", and the fault code of a run that
raises a fault. -/
structure Observation where
  responses : List Response
  fault : Option FaultCode
  deriving DecidableEq, Repr

/-- The observation of the run that has led to a state from the last reset (R124). -/
def State.observation (s : State) : Observation := ⟨s.responses, s.fault⟩

/-- R124: a run "ends successfully when every request has completed with a response and FAULT =
none". -/
def State.endedSuccessfully (s : State) : Bool := decide (s.inputs = [] ∧ s.fault = none)

end Sys2Proof.Machine
end

