-- ==== Sys2Proof/Certificates/Slice0/Obligations.lean ====
section
/-! DEFINITION. Certificates/Slice0/Obligations.lean: the statements about the model, for the provers.
OBLIGATIONS.json says of each which rules of the spec it formalises. A statement about every state is
about every legal configuration too: the configuration is part of the state. The lists of pending inputs
and of responses are the model's form of the block's interface (log 3, log 4). -/

open Sys2Proof Sys2Proof.Machine

/-! ### The configuration (00_scope.md) -/

/-- R9: elaboration gives a configuration with the widths asked for exactly when they are legal. -/
def Obligations.ElaborationAcceptsTheLegalWidths : Prop :=
  ∀ (wIdx wInterp : Int) (roundEn : Bool) (mode : TableMode),
    (0 ≤ wIdx ∧ 0 ≤ wInterp ∧ wIdx + wInterp ≤ 12 →
      ∃ cfg, elaborate wIdx wInterp roundEn mode = some cfg ∧ (cfg.wIdx : Int) = wIdx ∧
        (cfg.wInterp : Int) = wInterp ∧ cfg.roundEn = roundEn ∧ cfg.tableMode = mode) ∧
    (¬(0 ≤ wIdx ∧ 0 ≤ wInterp ∧ wIdx + wInterp ≤ 12) →
      elaborate wIdx wInterp roundEn mode = none)

/-- R10, R11: the derived constants, with `OFF_INTERP >= 0` for every configuration (as integers), and
their values at the defaults. -/
def Obligations.DerivedConstantsOfAConfiguration : Prop :=
  (∀ cfg : Config,
    numIntervals cfg = 2 ^ cfg.wIdx ∧ tableSize cfg = numIntervals cfg + 1 ∧
    (offIdx cfg : Int) = 12 - cfg.wIdx ∧ (offInterp cfg : Int) = offIdx cfg - cfg.wInterp ∧
    (cfg.roundEn = true → 0 < offInterp cfg → rconst cfg = 2 ^ (offInterp cfg - 1)) ∧
    (cfg.roundEn = false ∨ offInterp cfg = 0 → rconst cfg = 0)) ∧
  numIntervals Config.default = 16 ∧ tableSize Config.default = 17 ∧ offIdx Config.default = 8 ∧
  offInterp Config.default = 0 ∧ Config.default.roundEn = true ∧
  ∀ cfg : Config, cfg.wIdx = 4 → cfg.wInterp = 8 → rconst cfg = 0

/-! ### Words and requests (30_encoding.md) -/

/-- R51, R52, R56: decode and encode agree in both directions, for every word and every request with
every operand. Every request is well formed. -/
def Obligations.DecodeAndEncodeAgree : Prop :=
  ∀ (w : Word) (i : Instr), i.wellFormed = true ∧ (decode w = .ok i ↔ encode i = w)

/-- R63: the four classes of legal words, with their bounds, and the fault of every other word. -/
def Obligations.WordsOfTheEncodingSpace : Prop :=
  ∀ w : Word,
    (w.toNat ≤ 0xFFFF → decode w = .ok (.sine (BitVec.ofNat 16 w.toNat))) ∧
    (0x10000 ≤ w.toNat → w.toNat ≤ 0x1FFFF →
      decode w = .ok (.tlookup (BitVec.ofNat 16 (w.toNat - 0x10000))) ∧
      ∀ cfg : Config,
        Instr.inRange cfg (.tlookup (BitVec.ofNat 16 (w.toNat - 0x10000))) = true ↔
          w.toNat ≤ 0x10000 + 2 ^ cfg.wIdx) ∧
    (w.toNat = 0x20000 → decode w = .ok .tsize) ∧
    (w.toNat = 0x30000 → decode w = .ok .tinit) ∧
    (0x20000 < w.toNat → w.toNat ≠ 0x30000 →
      ∀ (s : State) (rest : List HostInput), Accepts s w rest →
        step s = .next { s with inputs := rest, fault := some .rsvdEnc })

/-- R67: the words the spec writes out, and what each of them decodes to. -/
def Obligations.WordsWrittenOutBySpec : Prop :=
  decode 0x00000555#32 = .ok (.sine 0x0555#16) ∧
  decode 0x0000FFFF#32 = .ok (.sine 0xFFFF#16) ∧
  decode 0x00010010#32 = .ok (.tlookup 16#16) ∧
  decode 0x00020000#32 = .ok .tsize ∧
  decode 0x00030000#32 = .ok .tinit ∧
  decode 0x00040000#32 = .error .reservedBits ∧
  decode 0x00020001#32 = .error .operandBits

/-- R57: when the word the host presents decodes to a well-formed request, the step is that request's
meaning, with the word no longer pending. -/
def Obligations.StepPerformsTheDecodedRequest : Prop :=
  ∀ (s : State) (w : Word) (rest : List HostInput) (i : Instr),
    Accepts s w rest → decode w = .ok i → i.wellFormed = true →
    step s = exec i { s with inputs := rest }

/-- R101: an accepted word raises RSVD_ENC exactly when `w[31:18] != 0`, or `w[17:16]` is 2 or 3 and
`w[15:0] != 0`. -/
def Obligations.IllegalWordsRaiseRsvdEnc : Prop :=
  ∀ (s : State) (w : Word) (rest : List HostInput), Accepts s w rest →
    ((w.toNat / 2 ^ 18 ≠ 0 ∨ 2 ≤ w.toNat / 2 ^ 16 % 4 ∧ w.toNat % 2 ^ 16 ≠ 0) →
      step s = .next { s with inputs := rest, fault := some .rsvdEnc }) ∧
    (¬(w.toNat / 2 ^ 18 ≠ 0 ∨ 2 ≤ w.toNat / 2 ^ 16 % 4 ∧ w.toNat % 2 ^ 16 ≠ 0) →
      ∃ t, step s = .next t ∧ t.fault ≠ some .rsvdEnc)

/-- R58, R59: the four fields of the reduced angle make it up, and the worked layouts. -/
def Obligations.AngleFieldsLayOutTheAngle : Prop :=
  ∀ (cfg : Config) (angle : Arg),
    let a := reduceAngle cfg angle
    (∃ residual, residual < 2 ^ offInterp cfg ∧ indexOf cfg a < 2 ^ cfg.wIdx ∧
      fracOf cfg a < 2 ^ cfg.wInterp ∧ quadrantOf a < 4 ∧
      a = quadrantOf a * 2 ^ 12 + indexOf cfg a * 2 ^ (12 - cfg.wIdx) +
        fracOf cfg a * 2 ^ offInterp cfg + residual) ∧
    (cfg.wIdx = 4 → cfg.wInterp = 8 →
      a = angle.toNat % 2 ^ 14 ∧ quadrantOf a = a / 2 ^ 12 ∧ indexOf cfg a = a / 2 ^ 8 % 2 ^ 4 ∧
        fracOf cfg a = a % 2 ^ 8) ∧
    (cfg.wIdx = 4 → cfg.wInterp = 6 →
      a = (angle.toNat + if cfg.roundEn then 2 else 0) % 2 ^ 14 ∧ quadrantOf a = a / 2 ^ 12 ∧
        indexOf cfg a = a / 2 ^ 8 % 2 ^ 4 ∧ fracOf cfg a = a / 2 ^ 2 % 2 ^ 6) ∧
    (cfg.wIdx = 5 → cfg.wInterp = 7 →
      a = angle.toNat % 2 ^ 14 ∧ quadrantOf a = a / 2 ^ 12 ∧ indexOf cfg a = a / 2 ^ 7 % 2 ^ 5 ∧
        fracOf cfg a = a % 2 ^ 7) ∧
    (cfg.wIdx = 0 → cfg.wInterp = 0 →
      a = (angle.toNat + if cfg.roundEn then 0x800 else 0) % 2 ^ 14 ∧
        quadrantOf a = a / 2 ^ 12 ∧ indexOf cfg a = 0 ∧ fracOf cfg a = 0)

/-! ### SINE (40_sine.md) -/

/-- R70, R71: the quadrant conditions of each quadrant, and the index reflection with its range. -/
def Obligations.QuadrantsDecodeAndReflect : Prop :=
  (∀ q : Nat, (isForward q = true ↔ q % 2 = 0) ∧ (isNegative q = true ↔ q / 2 % 2 = 1)) ∧
  ∀ (cfg : Config) (idx : Nat), idx ≤ 2 ^ cfg.wIdx - 1 →
    reflect cfg true idx = idx ∧ (reflect cfg false idx : Int) = 2 ^ cfg.wIdx - 1 - idx ∧
    ∀ fwd : Bool, reflect cfg fwd idx ≤ 2 ^ cfg.wIdx - 1

/-- R81: SINE, written out from the rule: NOT_READY in generated mode before TINIT, and otherwise the
response, with nothing else changed but rp. -/
def Obligations.SineFollowsItsRule : Prop :=
  ∀ (s : State) (angle : Arg), s.Inv →
    (s.cfg.tableMode = .generated → s.ready = false →
      exec (.sine angle) s = .next { s with fault := some .notReady }) ∧
    (s.ready = true →
      let n := 2 ^ s.cfg.wIdx
      let off := 12 - s.cfg.wIdx - s.cfg.wInterp
      let a : Nat := (angle.toNat + if s.cfg.roundEn = true ∧ 0 < off then 2 ^ (off - 1) else 0) % 2 ^ 14
      let q : Nat := a / 2 ^ 12
      let idx : Nat := a / 2 ^ (12 - s.cfg.wIdx) % 2 ^ s.cfg.wIdx
      let frac : Nat := a / 2 ^ off % 2 ^ s.cfg.wInterp
      let ridx := if q = 0 ∨ q = 2 then idx else (n - 1) - idx
      let x1 := tableValue s.cfg ridx
      let x2 := tableValue s.cfg (ridx + 1)
      let shift := (x2 - x1) * (frac : Int) / 2 ^ s.cfg.wInterp
      let s0 := if q = 0 ∨ q = 2 then x1 + shift else x2 - shift
      let r := if q = 2 ∨ q = 3 then -s0 else s0
      exec (.sine angle) s =
        .next { s with rp := s.rp + 1, responses := s.responses ++ [BitVec.ofInt 16 r] })

/-- R82: the result is in [-32767, 32767], and its size lies between the two samples. -/
def Obligations.SineStaysInRange : Prop :=
  ∀ (s : State) (angle : Arg), s.Inv → s.ready = true →
    ∃ (v : Response) (s0 : Int),
      Responds s (.sine angle) v ∧ -32767 ≤ v.toInt ∧ v.toInt ≤ 32767 ∧
      0 ≤ s0 ∧ s0 ≤ 32767 ∧ (v.toInt = s0 ∨ v.toInt = -s0) ∧
      tableValue s.cfg (reduce s.cfg angle).ridx ≤ s0 ∧
      s0 ≤ tableValue s.cfg ((reduce s.cfg angle).ridx + 1)

/-- R83: the four endpoints, at every legal configuration. -/
def Obligations.SineEndpointsAreExact : Prop :=
  ∀ s : State, s.Inv → s.ready = true →
    Responds s (.sine 0x0000#16) (BitVec.ofInt 16 0) ∧
    Responds s (.sine 0x1000#16) (BitVec.ofInt 16 32767) ∧
    Responds s (.sine 0x2000#16) (BitVec.ofInt 16 0) ∧
    Responds s (.sine 0x3000#16) (BitVec.ofInt 16 (-32767))

/-- R84: odd symmetry, exactly, at every operand and every legal configuration. -/
def Obligations.SineIsOddAboutHalfATurn : Prop :=
  ∀ (s : State) (angle : Arg), s.Inv → s.ready = true →
    ∃ u v : Response, Responds s (.sine (angle + 0x2000#16)) u ∧ Responds s (.sine angle) v ∧
      u.toInt = -v.toInt

/-- R85, first part: where no residual bits exist, the mirror about 90 degrees is exact up to 1. -/
def Obligations.SineMirrorsAboutAQuarterTurn : Prop :=
  ∀ (s : State) (j : Nat), s.Inv → s.ready = true → s.cfg.wIdx + s.cfg.wInterp = 12 →
    j ≤ 0x1000 →
    ∃ u v : Response, Responds s (.sine (BitVec.ofNat 16 (0x1000 + j))) u ∧
      Responds s (.sine (BitVec.ofNat 16 (0x1000 - j))) v ∧
      (u.toInt - v.toInt = 0 ∨ u.toInt - v.toInt = 1)

/-- R87: SINE never falls on angles 0 to 0x1000, never rises on 0x1000 to 0x3000, and never falls on
0x3000 to 0x3FFF, at every legal configuration. -/
def Obligations.SineIsMonotoneOnEachArc : Prop :=
  ∀ (s : State) (a b : Nat), s.Inv → s.ready = true → a ≤ b → b ≤ 0x3FFF →
    ∃ u v : Response, Responds s (.sine (BitVec.ofNat 16 a)) u ∧
      Responds s (.sine (BitVec.ofNat 16 b)) v ∧
      (b ≤ 0x1000 → u.toInt ≤ v.toInt) ∧
      (0x1000 ≤ a → b ≤ 0x3000 → v.toInt ≤ u.toInt) ∧
      (0x3000 ≤ a → u.toInt ≤ v.toInt)

/-- R88: SINE reads its operand modulo one full turn, in every state. -/
def Obligations.SineWrapsAtAFullTurn : Prop :=
  (∀ (s : State) (angle : Arg),
    exec (.sine angle) s = exec (.sine (BitVec.ofNat 16 (angle.toNat % 0x4000))) s) ∧
  ∀ s : State, s.Inv → s.ready = true →
    Responds s (.sine 0x4000#16) 0#16 ∧ Responds s (.sine 0x0000#16) 0#16

/-- R89: SINE at the table positions of the four quadrants is a table entry or its negation. -/
def Obligations.SineAtTablePositions : Prop :=
  ∀ (s : State) (i : Nat), s.Inv → s.ready = true → i ≤ 2 ^ s.cfg.wIdx →
    let up := i * 2 ^ (12 - s.cfg.wIdx)
    let down := (2 ^ s.cfg.wIdx - i) * 2 ^ (12 - s.cfg.wIdx)
    ∃ x : Int, s.tableRead i = some x ∧
      Responds s (.sine (BitVec.ofNat 16 (up % 0x4000))) (BitVec.ofInt 16 x) ∧
      Responds s (.sine (BitVec.ofNat 16 ((0x1000 + down) % 0x4000))) (BitVec.ofInt 16 x) ∧
      Responds s (.sine (BitVec.ofNat 16 ((0x2000 + up) % 0x4000))) (BitVec.ofInt 16 (-x)) ∧
      Responds s (.sine (BitVec.ofNat 16 ((0x3000 + down) % 0x4000))) (BitVec.ofInt 16 (-x))

/-- R74: both reads of SINE are inside the table, and the last index meets the padding entry. -/
def Obligations.SineReadsInsideTheTable : Prop :=
  ∀ (s : State) (angle : Arg), s.Inv → s.ready = true →
    let ridx := (reduce s.cfg angle).ridx
    ridx + 1 ≤ 2 ^ s.cfg.wIdx ∧
    (∃ x1 x2 : Int, s.tableRead ridx = some x1 ∧ s.tableRead (ridx + 1) = some x2) ∧
    (ridx = 2 ^ s.cfg.wIdx - 1 → s.tableRead (ridx + 1) = some 32767)

/-- R76, R121: no signal of the interpolator loses a value: for any two 16-bit entries, and tighter
for the table's own. -/
def Obligations.InterpolatorSignalsFit : Prop :=
  (∀ (cfg : Config) (angle : Arg) (x1 x2 : Sample),
    let frac := (reduce cfg angle).frac
    |deltaOf x1.toInt x2.toInt| ≤ 65535 ∧
    |prodOf x1.toInt x2.toInt frac| ≤ 268365825 ∧
    |shiftOf cfg x1.toInt x2.toInt frac| ≤ 65535) ∧
  ∀ (cfg : Config) (angle : Arg),
    let r := reduce cfg angle
    let x1 := tableValue cfg r.ridx
    let x2 := tableValue cfg (r.ridx + 1)
    0 ≤ deltaOf x1 x2 ∧ deltaOf x1 x2 ≤ 32767 ∧
    0 ≤ prodOf x1 x2 r.frac ∧ prodOf x1 x2 r.frac < 2 ^ 27 ∧
    0 ≤ shiftOf cfg x1 x2 r.frac ∧ shiftOf cfg x1 x2 r.frac ≤ 32767

/-- R86: the bounds of the interpolator's signals on the table's own samples. -/
def Obligations.InterpolatorShiftIsNonNegative : Prop :=
  ∀ (cfg : Config) (angle : Arg),
    let r := reduce cfg angle
    let x1 := tableValue cfg r.ridx
    let x2 := tableValue cfg (r.ridx + 1)
    0 ≤ deltaOf x1 x2 ∧ deltaOf x1 x2 ≤ 32767 ∧
    0 ≤ prodOf x1 x2 r.frac ∧ prodOf x1 x2 r.frac ≤ 134180865 ∧
    (cfg.wIdx = 4 → cfg.wInterp = 8 →
      deltaOf x1 x2 ≤ 3212 ∧ prodOf x1 x2 r.frac ≤ 819060) ∧
    0 ≤ shiftOf cfg x1 x2 r.frac ∧ shiftOf cfg x1 x2 r.frac ≤ deltaOf x1 x2 ∧
    (0 < deltaOf x1 x2 → shiftOf cfg x1 x2 r.frac < deltaOf x1 x2)

/-! ### TLOOKUP, TSIZE, TINIT (41_table_access.md) -/

/-- R90: TLOOKUP: the range fault first, then NOT_READY, then the entry. -/
def Obligations.TlookupFollowsItsRule : Prop :=
  ∀ (s : State) (index : Arg), s.Inv →
    (2 ^ s.cfg.wIdx < index.toNat →
      exec (.tlookup index) s = .next { s with fault := some .lookupRange }) ∧
    (index.toNat ≤ 2 ^ s.cfg.wIdx → s.cfg.tableMode = .generated → s.ready = false →
      exec (.tlookup index) s = .next { s with fault := some .notReady }) ∧
    (index.toNat ≤ 2 ^ s.cfg.wIdx → s.ready = true →
      s.tableRead index.toNat = some (tableValue s.cfg index.toNat) ∧
      exec (.tlookup index) s =
        .next { s with rp := s.rp + 1,
                       responses := s.responses ++ [BitVec.ofInt 16 (tableValue s.cfg index.toNat)] })

/-- R91: TSIZE answers N + 1, in every state, and no bit of it is lost. -/
def Obligations.TsizeFollowsItsRule : Prop :=
  ∀ s : State,
    exec .tsize s =
      .next { s with rp := s.rp + 1,
                     responses := s.responses ++ [BitVec.ofNat 16 (2 ^ s.cfg.wIdx + 1)] } ∧
    (BitVec.ofNat 16 (2 ^ s.cfg.wIdx + 1)).toNat = 2 ^ s.cfg.wIdx + 1

/-- R92: TINIT in static mode answers 0x0000 and does nothing else, any number of times. -/
def Obligations.TinitInStaticModeDoesNothing : Prop :=
  ∀ s : State, s.cfg.tableMode = .static →
    exec .tinit s = .next { s with rp := s.rp + 1, responses := s.responses ++ [0x0000#16] }

/-- R93: TINIT in generated mode: the first fills the table, sets READY and answers 0x0000; a second
raises REINIT. -/
def Obligations.TinitInGeneratedModeFillsOnce : Prop :=
  ∀ s : State, s.Inv → s.cfg.tableMode = .generated →
    (s.ready = false →
      ∃ t, exec .tinit s = .next t ∧
        (∀ i ≤ 2 ^ s.cfg.wIdx, t.tableRead i = some (tableValue s.cfg i)) ∧
        t.ready = true ∧ t.responses = s.responses ++ [0x0000#16] ∧ t.rp = s.rp + 1 ∧
        t.cfg = s.cfg ∧ t.fault = s.fault ∧ t.inputs = s.inputs) ∧
    (s.ready = true → exec .tinit s = .next { s with fault := some .reinit })

/-- R95: a static block and a ready generated block of the same widths answer every SINE and every
TLOOKUP alike. -/
def Obligations.BothModesGiveTheSameAnswers : Prop :=
  ∀ s t : State, s.Inv → t.Inv → s.cfg.tableMode = .static → t.cfg.tableMode = .generated →
    t.ready = true → s.cfg.wIdx = t.cfg.wIdx → s.cfg.wInterp = t.cfg.wInterp →
    s.cfg.roundEn = t.cfg.roundEn →
    (∀ i ≤ 2 ^ s.cfg.wIdx, s.tableRead i = some (tableValue s.cfg i) ∧
      t.tableRead i = some (tableValue s.cfg i)) ∧
    (∀ angle : Arg, ∃ v, Responds s (.sine angle) v ∧ Responds t (.sine angle) v) ∧
    (∀ index : Arg, index.toNat ≤ 2 ^ s.cfg.wIdx →
      ∃ v, Responds s (.tlookup index) v ∧ Responds t (.tlookup index) v) ∧
    (∀ index : Arg, 2 ^ s.cfg.wIdx < index.toNat →
      Raises s (.tlookup index) .lookupRange ∧ Raises t (.tlookup index) .lookupRange)

/-- R96: every entry of every legal table is 32767 times the exact real sine, rounded to the nearest
integer, and at least 0.00014 away from a tie. -/
def Obligations.TableIsTheRoundedSine : Prop :=
  ∀ (cfg : Config) (i : Nat), i ≤ 2 ^ cfg.wIdx →
    let y : ℝ := 32767 * Real.sin (i * (Real.pi / 2) / 2 ^ cfg.wIdx)
    tableValue cfg i = round y ∧ |y - tableValue cfg i| ≤ 1 / 2 - 0.00014 ∧
    0 ≤ tableValue cfg i ∧ tableValue cfg i ≤ 32767 ∧
    (i = 0 → tableValue cfg i = 0) ∧ (i = 2 ^ cfg.wIdx → tableValue cfg i = 32767)

/-- R25: the 17 values of the default table, and that they rise strictly. -/
def Obligations.DefaultTableHasTheListedValues : Prop :=
  ∀ cfg : Config, cfg.wIdx = 4 →
    (List.range 17).map (tableValue cfg) =
      [0, 3212, 6393, 9512, 12539, 15446, 18204, 20787, 23170, 25329, 27245, 28898, 30273, 31356,
       32137, 32609, 32767]

/-- R97: at `W_IDX = 4` a truncating table differs from TV by 1 at the listed entries and nowhere
else, and no ready block holds it. -/
def Obligations.TruncatingTableIsNotTheTable : Prop :=
  (∀ (cfg : Config) (i : Nat), cfg.wIdx = 4 → i ≤ 16 →
    tableValue cfg i - ⌊(32767 * Real.sin (i * (Real.pi / 2) / 16) : ℝ)⌋ =
      if i = 1 ∨ i = 2 ∨ i = 3 ∨ i = 8 ∨ i = 10 ∨ i = 11 ∨ i = 12 then 1 else 0) ∧
  ∀ s : State, s.Inv → s.ready = true → s.cfg.wIdx = 4 →
    ∃ i ≤ 16, s.tableRead i ≠ some ⌊(32767 * Real.sin (i * (Real.pi / 2) / 16) : ℝ)⌋

/-! ### State, invariants and frames (10_state.md, 20_memory.md) -/

/-- R33, R115: the state after reset, in every configuration. That State.reset, the machine's one reset
state, is the one of the spec's default configuration (the last four conjuncts) is the model's choice
(log 7). -/
def Obligations.ResetStateHasTheListedValues : Prop :=
  (∀ cfg : Config,
    let s := State.resetOf cfg
    s.cfg = cfg ∧ s.fault = none ∧ s.rp = 0 ∧
    (cfg.tableMode = .static →
      s.ready = true ∧ ∀ i ≤ 2 ^ cfg.wIdx, s.tableRead i = some (tableValue cfg i)) ∧
    (cfg.tableMode = .generated →
      s.ready = false ∧ ∀ i ≤ 2 ^ cfg.wIdx, s.tableRead i = none)) ∧
  State.reset.cfg.wIdx = 4 ∧ State.reset.cfg.wInterp = 8 ∧ State.reset.cfg.roundEn = true ∧
  State.reset.cfg.tableMode = .static

/-- The invariant holds after reset, in every configuration. -/
def Obligations.ResetMeetsTheInvariant : Prop := ∀ cfg : Config, (State.resetOf cfg).Inv

/-- The invariant (R21, R24, R26, R28, and the table's canonical form) is kept by every step from
every state. -/
def Obligations.EveryStepKeepsTheInvariant : Prop :=
  ∀ s t : State, s.Inv → step s = .next t → t.Inv

/-- R39, R41: a write makes its entry hold the value, leaves every other entry alone and keeps the
canonical form (the form is the model's choice, log 1), for every entry of the index space and every
16-bit signed value. -/
def Obligations.TableWriteChangesOneEntry : Prop :=
  ∀ (cfg : Config) (m : Memory) (i : Nat) (v : Int), Memory.wf cfg m = true → i ≤ 2 ^ cfg.wIdx →
    -32768 ≤ v → v ≤ 32767 →
    Memory.read cfg (Memory.write cfg m i v) i = some v ∧
    (∀ j, j ≠ i → Memory.read cfg (Memory.write cfg m i v) j = Memory.read cfg m j) ∧
    Memory.wf cfg (Memory.write cfg m i v) = true

/-- R27: whenever READY is 1 the table starts at 0, ends at 32767 and never falls; the largest
difference of neighbours is 32767 over all widths, and 3212 at `W_IDX = 4`. -/
def Obligations.ReadyTableRisesFromZeroToFull : Prop :=
  ∀ s : State, s.Inv → s.ready = true →
    s.tableRead 0 = some 0 ∧ s.tableRead (2 ^ s.cfg.wIdx) = some 32767 ∧
    (∀ i < 2 ^ s.cfg.wIdx, ∃ x y : Int, s.tableRead i = some x ∧ s.tableRead (i + 1) = some y ∧
      x ≤ y ∧ y - x ≤ 32767 ∧ (s.cfg.wIdx = 4 → y - x ≤ 3212)) ∧
    (s.cfg.wIdx = 0 → s.tableRead 1 = some 32767) ∧
    (s.cfg.wIdx = 4 → s.tableRead 1 = some 3212)

/-- R26, R28, R39: READY and the table change only by a reset, or by a TINIT in generated mode with
READY = 0; in static mode READY is 1 at all times. That the words a faulted block has not accepted are
lost at the reset, and that the responses start anew there, is the model's choice (log 3, log 4). -/
def Obligations.TableAndReadyChangeOnlyByTinitOrReset : Prop :=
  ∀ s t : State, s.Inv → step s = .next t →
    (s.cfg.tableMode = .static → t.ready = true) ∧
    ((t.ready ≠ s.ready ∨ ∃ i, t.tableRead i ≠ s.tableRead i) →
      (∃ pre rest, s.inputs = pre ++ .reset :: rest ∧
        t = { State.resetOf s.cfg with inputs := rest }) ∨
      (s.cfg.tableMode = .generated ∧ s.ready = false ∧ t.ready = true ∧
        ∃ w rest, Accepts s w rest ∧ decode w = .ok .tinit))

/-- The frame of SINE, TLOOKUP and TSIZE: configuration, READY, pending inputs and every table entry
are unchanged, and so is FAULT where they complete (R81, R90, R91: "writes no state except rp"); where
they fault, nothing but FAULT changes (R99). -/
def Obligations.ReadingRequestsLeaveTheTable : Prop :=
  ∀ (i : Instr) (s t : State), i ≠ .tinit → exec i s = .next t →
    t.cfg = s.cfg ∧ t.ready = s.ready ∧ t.inputs = s.inputs ∧ t.table = s.table ∧
    (∀ k, t.tableRead k = s.tableRead k) ∧
    ((t.fault = s.fault ∧ t.rp = s.rp + 1 ∧ ∃ v, t.responses = s.responses ++ [v]) ∨
      ∃ c, t = { s with fault := some c })

/-- The frame of TINIT: configuration and pending inputs are unchanged in both modes, and every entry
outside the index space reads as before; in static mode, and where it faults, every entry and READY
are unchanged; where it completes FAULT is unchanged, and where it faults nothing else changes (R92,
R93, R99). -/
def Obligations.TinitLeavesAllButTheTable : Prop :=
  ∀ s t : State, exec .tinit s = .next t →
    t.cfg = s.cfg ∧ t.inputs = s.inputs ∧
    (∀ k, 2 ^ s.cfg.wIdx < k → t.tableRead k = s.tableRead k) ∧
    ((s.cfg.tableMode = .static ∨ s.ready = true) →
      t.ready = s.ready ∧ t.table = s.table ∧ ∀ k, t.tableRead k = s.tableRead k) ∧
    ((t.fault = s.fault ∧ t.rp = s.rp + 1 ∧ t.responses = s.responses ++ [0x0000#16]) ∨
      t = { s with fault := some .reinit })

/-- R123: no step, a reset among them, changes the configuration. -/
def Obligations.ConfigurationNeverChanges : Prop :=
  ∀ s t : State, step s = .next t → t.cfg = s.cfg

/-- R21: rp is 0 on reset, advances by exactly 1 with each response, and does not advance on a request
that faults. The last clause is the model's choice (log 4): the responses are listed in order. -/
def Obligations.RequestCountFollowsTheResponses : Prop :=
  (∀ cfg : Config, (State.resetOf cfg).rp = 0) ∧
  (∀ (s t : State) (rest : List HostInput), s.inputs = .reset :: rest → step s = .next t →
    t.rp = 0) ∧
  ∀ (s t : State) (w : Word) (rest : List HostInput), Accepts s w rest → step s = .next t →
    (t.fault = none → t.rp = s.rp + 1 ∧ ∃ v, t.responses = s.responses ++ [v]) ∧
    (t.fault ≠ none → t.rp = s.rp ∧ t.responses = s.responses)

/-- R41, R112: a SINE, TLOOKUP or TSIZE that completes has no side effect on any later response: after
it, every request does what it would have done before, with the same response or the same fault and the
same table. -/
def Obligations.ReadsHaveNoSideEffects : Prop :=
  ∀ (i j : Instr) (s t : State), j ≠ .tinit → s.fault = none → exec j s = .next t → t.fault = none →
    (∀ v, Responds s i v → Responds t i v) ∧
    ∀ u, exec i s = .next u → ∃ (u' : State) (out : List Response), exec i t = .next u' ∧
      u'.fault = u.fault ∧ u'.table = u.table ∧ u'.ready = u.ready ∧
      u.responses = s.responses ++ out ∧ u'.responses = t.responses ++ out

/-- R120: what a request does depends only on the request, the configuration and the table state: two
states that agree on these give the same response, the same fault, the same table. -/
def Obligations.AnswersDependOnTheTableStateOnly : Prop :=
  ∀ (i : Instr) (s s' t : State), s.cfg = s'.cfg → s.table = s'.table → s.ready = s'.ready →
    s.fault = none → s'.fault = none → exec i s = .next t →
    ∃ (t' : State) (out : List Response), exec i s' = .next t' ∧
      t.fault = t'.fault ∧ t.table = t'.table ∧ t.ready = t'.ready ∧
      t.responses = s.responses ++ out ∧ t'.responses = s'.responses ++ out ∧
      t.rp = s.rp + out.length ∧ t'.rp = s'.rp + out.length

/-! ### Faults (60_exceptions.md) -/

/-- A fault changes nothing but FAULT (R99); a faulted block has no step and only a reset ends it. Three
parts are the model's reading of the last two: that "no step" is the stop Fault.quiescent (log 5, DEDUCED),
that the words before the reset are lost (log 3, DESIGN CHOICE), and that the responses start anew at the
reset (log 4, DESIGN CHOICE). -/
def Obligations.FaultsArePreciseAndSticky : Prop :=
  (∀ (s t : State) (w : Word) (rest : List HostInput) (c : FaultCode), Accepts s w rest →
    step s = .next t → t.fault = some c → t = { s with inputs := rest, fault := some c }) ∧
  (∀ (s : State) (c : FaultCode), s.fault = some c → (∀ x ∈ s.inputs, x ≠ .reset) →
    step s = .fault (.quiescent c)) ∧
  ∀ (s t : State) (c : FaultCode), s.fault = some c → step s = .next t →
    ∃ pre rest, s.inputs = pre ++ .reset :: rest ∧ (∀ x ∈ pre, x ≠ .reset) ∧
      t = { State.resetOf s.cfg with inputs := rest }

/-- R102, R103, R104: each fault of a legal request occurs exactly when its rule says. -/
def Obligations.FaultsHaveExactlyTheirCauses : Prop :=
  ∀ (i : Instr) (s : State), s.Inv → s.fault = none →
    ∃ t, exec i s = .next t ∧ t.fault ≠ some .rsvdEnc ∧
      (t.fault = some .lookupRange ↔ ∃ k : Arg, i = .tlookup k ∧ 2 ^ s.cfg.wIdx < k.toNat) ∧
      (t.fault = some .notReady ↔ s.cfg.tableMode = .generated ∧ s.ready = false ∧
        ((∃ a, i = .sine a) ∨ ∃ k : Arg, i = .tlookup k ∧ k.toNat ≤ 2 ^ s.cfg.wIdx)) ∧
      (t.fault = some .reinit ↔ i = .tinit ∧ s.cfg.tableMode = .generated ∧ s.ready = true)

/-- R105: an accepted word raises the first fault that applies, in the order RSVD_ENC, LOOKUP_RANGE,
NOT_READY or REINIT, and completes where none applies. -/
def Obligations.FaultsHaveTheirPriority : Prop :=
  ∀ (s : State) (w : Word) (rest : List HostInput), s.Inv → Accepts s w rest →
    let unfilled := s.cfg.tableMode = .generated ∧ s.ready = false
    ∃ t, step s = .next t ∧ t.fault =
      match decode w with
      | .error _ => some .rsvdEnc
      | .ok (.tlookup k) =>
        if 2 ^ s.cfg.wIdx < k.toNat then some .lookupRange
        else if unfilled then some .notReady else none
      | .ok (.sine _) => if unfilled then some .notReady else none
      | .ok .tinit =>
        if s.cfg.tableMode = .generated ∧ s.ready = true then some .reinit else none
      | .ok .tsize => none

/-- A block that is not faulted always has a next state; the only stop of the machine is that of a faulted
block, and no request is refused. That a block to which nothing is presented has a next state is the
model's choice (log 3, DESIGN CHOICE), that "no step" of a faulted block is the stop Fault.quiescent its
reading (log 5, DEDUCED). -/
def Obligations.OnlyAFaultedBlockStops : Prop :=
  ∀ s : State, (∃ t, step s = .next t) ∨
    ∃ c, s.fault = some c ∧ (∀ x ∈ s.inputs, x ≠ .reset) ∧ step s = .fault (.quiescent c)

/-! ### Runs, reset and boot (70_reset_and_hazards.md) -/

/-- R50, R57, R124: a run over any sequence of words, from any state that is not faulted. `st n` is the
state after the first `n` words. Word by word, in order, the request the word decodes to is performed and
gives the response at that place of `out`, up to the first word that faults, the word `k`, or to the end:
the run over all words ends successfully with the observation `out`, or word `k` is illegal or its request
raises the observed code, and no later step exists. That "no step" is the stop Fault.quiescent is the
model's reading (log 5), that the responses are listed in the state its choice (log 4). -/
def Obligations.RunsAnswerInOrderUntilAFault : Prop :=
  ∀ (s : State) (ws : List Word), s.fault = none → s.inputs = ws.map .request →
    ∃ (k : Nat) (st : Nat → State) (out : List Response),
      k ≤ ws.length ∧ out.length = k ∧ st 0 = s ∧
      (∀ n ≤ k, core.run n s = .next (st n)) ∧
      (∀ n < k, ∃ (w : Word) (i : Instr) (v : Response),
        ws[n]? = some w ∧ decode w = .ok i ∧ out[n]? = some v ∧
        exec i ((st n).taken ((ws.drop (n + 1)).map .request)) = .next (st (n + 1)) ∧
        (st (n + 1)).fault = none ∧ (st (n + 1)).responses = (st n).responses ++ [v]) ∧
      ((k = ws.length ∧ (st k).endedSuccessfully = true ∧
          (st k).observation = ⟨s.responses ++ out, none⟩) ∨
        ∃ (w : Word) (c : FaultCode) (t : State), ws[k]? = some w ∧
          ((∃ e, decode w = .error e ∧ c = .rsvdEnc) ∨
            ∃ i, decode w = .ok i ∧ Raises ((st k).taken ((ws.drop (k + 1)).map .request)) i c) ∧
          core.run (k + 1) s = .next t ∧
          t = { st k with inputs := (ws.drop (k + 1)).map .request, fault := some c } ∧
          t.endedSuccessfully = false ∧ t.observation = ⟨s.responses ++ out, some c⟩ ∧
          ∀ n, core.run (k + 2 + n) s = .fault (.quiescent c))

/-- R115: a reset, in any state, and after any requests that a faulted block has not accepted, sets the
state as listed. That such requests are lost, and that the list of responses starts anew, is the
model's choice (log 3, log 4), and so is that a reset has no duration, so that `rest` is presented to the
block after it (log 13). -/
def Obligations.ResetSetsTheStateFromAnywhere : Prop :=
  ∀ (s : State) (pre rest : List HostInput), s.inputs = pre ++ .reset :: rest →
    (∀ x ∈ pre, x ≠ .reset) → (s.fault = none → pre = []) →
    ∃ t, step s = .next t ∧ t.fault = none ∧ t.rp = 0 ∧ t.cfg = s.cfg ∧ t.inputs = rest ∧
      t.responses = [] ∧
      (s.cfg.tableMode = .static →
        t.ready = true ∧ ∀ i ≤ 2 ^ s.cfg.wIdx, t.tableRead i = some (tableValue s.cfg i)) ∧
      (s.cfg.tableMode = .generated →
        t.ready = false ∧ ∀ i ≤ 2 ^ s.cfg.wIdx, t.tableRead i = none)

/-- The model's choice (log 3): while nothing is presented to it, a block that is not faulted waits;
R113 says its state persists. -/
def Obligations.IdleBlockKeepsItsState : Prop :=
  ∀ s : State, s.fault = none → s.inputs = [] → step s = .next s

/-- R116: in static mode every request is served directly after reset. -/
def Obligations.StaticBlockServesFromReset : Prop :=
  ∀ (cfg : Config) (i : Instr), cfg.tableMode = .static → i.inRange cfg = true →
    ∃ v, Responds (State.resetOf cfg) i v

/-- R117: in generated mode a TINIT comes first: before it TSIZE is served and SINE and TLOOKUP fault,
after it every read is served and a second TINIT faults. In static mode TINIT does nothing. -/
def Obligations.GeneratedBlockNeedsOneTinit : Prop :=
  (∀ cfg : Config, cfg.tableMode = .generated →
    let s := State.resetOf cfg
    Responds s .tsize (BitVec.ofNat 16 (2 ^ cfg.wIdx + 1)) ∧
    (∀ angle : Arg, Raises s (.sine angle) .notReady) ∧
    (∀ index : Arg, index.toNat ≤ 2 ^ cfg.wIdx → Raises s (.tlookup index) .notReady) ∧
    ∃ t, exec .tinit s = .next t ∧ t.fault = none ∧
      (∀ angle : Arg, ∃ v, Responds t (.sine angle) v) ∧
      (∀ index : Arg, index.toNat ≤ 2 ^ cfg.wIdx → ∃ v, Responds t (.tlookup index) v) ∧
      Raises t .tinit .reinit) ∧
  ∀ cfg : Config, cfg.tableMode = .static → Responds (State.resetOf cfg) .tinit 0#16

/-! ### The assembler (30_encoding.md R64 to R66) -/

/-- R64: each line assembles to one word, `(OP << 16) | ARG`, and an operand outside 0 to 0xFFFF is
refused. -/
def Obligations.LinesAssembleToWords : Prop :=
  ∀ (cfg : Config) (n : Int),
    (0 ≤ n → n ≤ 0xFFFF →
      (SourceLine.sine n).assemble cfg = some (BitVec.ofInt 32 n) ∧
      (SourceLine.tlookup n).assemble cfg = some (BitVec.ofInt 32 (0x10000 + n))) ∧
    (n < 0 ∨ 0xFFFF < n →
      (SourceLine.sine n).assemble cfg = none ∧ (SourceLine.tlookup n).assemble cfg = none) ∧
    SourceLine.tsize.assemble cfg = some 0x00020000#32 ∧
    SourceLine.tinit.assemble cfg = some 0x00030000#32

/-- R65: SIND expands to SINE of `((d * 0x4000) div 360) mod 2^16`, and d outside 0 to 131071 is
refused. -/
def Obligations.SindExpandsToSine : Prop :=
  ∀ (cfg : Config) (d : Int),
    (0 ≤ d → d ≤ 131071 →
      (SourceLine.sind d).assemble cfg = some (BitVec.ofInt 32 (d * 0x4000 / 360 % 2 ^ 16))) ∧
    (d < 0 ∨ 131071 < d → (SourceLine.sind d).assemble cfg = none) ∧
    (d = 30 → (SourceLine.sind d).expand cfg = some (.sine 0x0555#16)) ∧
    (d = 90 → (SourceLine.sind d).expand cfg = some (.sine 0x1000#16)) ∧
    (d = 360 → (SourceLine.sind d).expand cfg = some (.sine 0x4000#16))

/-- R66: SINEI i expands to SINE of `(i << OFF_IDX) mod 2^16`, which stands in quadrant `i div N` at
index `i mod N` with interp 0; i outside 0 to 4N is refused. -/
def Obligations.SineiExpandsToATablePosition : Prop :=
  (∀ (cfg : Config) (i : Nat),
    (i ≤ 4 * 2 ^ cfg.wIdx →
      let arg := BitVec.ofNat 16 (i * 2 ^ (12 - cfg.wIdx) % 2 ^ 16)
      (SourceLine.sinei i).expand cfg = some (.sine arg) ∧
      quadrantOf (reduceAngle cfg arg) = i / 2 ^ cfg.wIdx % 4 ∧
      indexOf cfg (reduceAngle cfg arg) = i % 2 ^ cfg.wIdx ∧
      fracOf cfg (reduceAngle cfg arg) = 0) ∧
    (i = 4 * 2 ^ cfg.wIdx → (SourceLine.sinei i).expand cfg = some (.sine 0x4000#16)) ∧
    (4 * 2 ^ cfg.wIdx < i → (SourceLine.sinei i).expand cfg = none)) ∧
  (∀ (cfg : Config) (i : Int), i < 0 → (SourceLine.sinei i).expand cfg = none) ∧
  (SourceLine.sinei 20).expand Config.default = some (.sine 0x1400#16)
end

