-- ==== Sys2Proof/Laws/Decode.lean ====
section
/-! SUPPORT. Laws/Decode.lean: the fields of a request word, the decoder and the encoder as
arithmetic on the word's number, so that no later proof splits a word into bits. -/

namespace Sys2Proof

theorem rsvdField_toNat (w : Word) : (rsvdField w).toNat = w.toNat / 2 ^ 18 := by
  have := w.isLt
  simp only [rsvdField, BitVec.extractLsb'_toNat, Nat.shiftRight_eq_div_pow]
  omega

theorem opField_toNat (w : Word) : (opField w).toNat = w.toNat / 2 ^ 16 % 4 := by
  simp [opField, BitVec.extractLsb'_toNat, Nat.shiftRight_eq_div_pow]

theorem argField_toNat (w : Word) : (argField w).toNat = w.toNat % 2 ^ 16 := by
  simp [argField, BitVec.extractLsb'_toNat]

theorem argField_eq {w : Word} {n : Nat} (h : w.toNat % 2 ^ 16 = n % 2 ^ 16) :
    argField w = BitVec.ofNat 16 n :=
  BitVec.eq_of_toNat_eq (by rw [argField_toNat, BitVec.toNat_ofNat, h])

/-- The decoder as a case distinction on the word's number. -/
theorem decode_eq_arith (w : Word) : decode w =
    if w.toNat / 2 ^ 18 ≠ 0 then .error .reservedBits
    else if w.toNat / 2 ^ 16 % 4 = 0 then .ok (.sine (argField w))
    else if w.toNat / 2 ^ 16 % 4 = 1 then .ok (.tlookup (argField w))
    else if w.toNat % 2 ^ 16 ≠ 0 then .error .operandBits
    else if w.toNat / 2 ^ 16 % 4 = 2 then .ok .tsize
    else .ok .tinit := by
  simp only [decode, ← BitVec.toNat_inj, ne_eq, rsvdField_toNat, opField_toNat, argField_toNat,
    BitVec.toNat_ofNat]

/-- A request word's number is `OP * 2^16 + ARG` (R64). -/
theorem requestWord_toNat (op : BitVec 2) (arg : Arg) :
    (requestWord op arg).toNat = op.toNat * 2 ^ 16 + arg.toNat := by
  have h1 := op.isLt
  have h2 := arg.isLt
  rw [requestWord, BitVec.toNat_or, BitVec.toNat_shiftLeft, BitVec.toNat_setWidth,
    BitVec.toNat_setWidth, Nat.mod_eq_of_lt (by omega : op.toNat < 2 ^ 32),
    Nat.mod_eq_of_lt (by omega : arg.toNat < 2 ^ 32), Nat.shiftLeft_eq,
    Nat.mod_eq_of_lt (by omega), ← Nat.shiftLeft_eq, Nat.shiftLeft_add_eq_or_of_lt h2]

end Sys2Proof
end

