-- ==== Sys2Proof/Laws/State.lean ====
section
/-! SUPPORT. Laws/State.lean: one lemma per field for each way a step changes the state, so that no
later proof unfolds a record update. -/

namespace Sys2Proof.Machine

section Raise
variable (c : FaultCode) (s : State)

@[simp] theorem raiseFault_cfg : (raiseFault c s).cfg = s.cfg := rfl
@[simp] theorem raiseFault_table : (raiseFault c s).table = s.table := rfl
@[simp] theorem raiseFault_ready : (raiseFault c s).ready = s.ready := rfl
@[simp] theorem raiseFault_fault : (raiseFault c s).fault = some c := rfl
@[simp] theorem raiseFault_rp : (raiseFault c s).rp = s.rp := rfl
@[simp] theorem raiseFault_inputs : (raiseFault c s).inputs = s.inputs := rfl
@[simp] theorem raiseFault_responses : (raiseFault c s).responses = s.responses := rfl
@[simp] theorem raiseFault_tableRead (i : Nat) : (raiseFault c s).tableRead i = s.tableRead i := rfl

end Raise

section Respond
variable (v : Response) (s : State)

@[simp] theorem respond_cfg : (respond v s).cfg = s.cfg := rfl
@[simp] theorem respond_table : (respond v s).table = s.table := rfl
@[simp] theorem respond_ready : (respond v s).ready = s.ready := rfl
@[simp] theorem respond_fault : (respond v s).fault = s.fault := rfl
@[simp] theorem respond_rp : (respond v s).rp = s.rp + 1 := rfl
@[simp] theorem respond_inputs : (respond v s).inputs = s.inputs := rfl
@[simp] theorem respond_responses : (respond v s).responses = s.responses ++ [v] := rfl
@[simp] theorem respond_tableRead (i : Nat) : (respond v s).tableRead i = s.tableRead i := rfl

end Respond

section ResetOf
variable (cfg : Config)

@[simp] theorem resetOf_cfg : (State.resetOf cfg).cfg = cfg := rfl
@[simp] theorem resetOf_table : (State.resetOf cfg).table = [] := rfl
@[simp] theorem resetOf_ready :
    (State.resetOf cfg).ready = decide (cfg.tableMode = .static) := rfl
@[simp] theorem resetOf_fault : (State.resetOf cfg).fault = none := rfl
@[simp] theorem resetOf_rp : (State.resetOf cfg).rp = 0 := rfl
@[simp] theorem resetOf_inputs : (State.resetOf cfg).inputs = [] := rfl
@[simp] theorem resetOf_responses : (State.resetOf cfg).responses = [] := rfl

end ResetOf

section TakeReset
variable (s : State)

@[simp] theorem takeReset_cfg : (takeReset s).cfg = s.cfg := rfl
@[simp] theorem takeReset_table : (takeReset s).table = [] := rfl
@[simp] theorem takeReset_ready :
    (takeReset s).ready = decide (s.cfg.tableMode = .static) := rfl
@[simp] theorem takeReset_fault : (takeReset s).fault = none := rfl
@[simp] theorem takeReset_rp : (takeReset s).rp = 0 := rfl
@[simp] theorem takeReset_inputs : (takeReset s).inputs = s.inputs := rfl
@[simp] theorem takeReset_responses : (takeReset s).responses = [] := rfl

end TakeReset

section Taken
variable (s : State) (rest : List HostInput)

@[simp] theorem taken_cfg : (s.taken rest).cfg = s.cfg := rfl
@[simp] theorem taken_table : (s.taken rest).table = s.table := rfl
@[simp] theorem taken_ready : (s.taken rest).ready = s.ready := rfl
@[simp] theorem taken_fault : (s.taken rest).fault = s.fault := rfl
@[simp] theorem taken_rp : (s.taken rest).rp = s.rp := rfl
@[simp] theorem taken_inputs : (s.taken rest).inputs = rest := rfl
@[simp] theorem taken_responses : (s.taken rest).responses = s.responses := rfl
@[simp] theorem taken_tableRead (i : Nat) : (s.taken rest).tableRead i = s.tableRead i := rfl
@[simp] theorem taken_notReady : (s.taken rest).notReady = s.notReady := rfl

end Taken

section Offer
variable (w : Word) (s : State)

@[simp] theorem offer_inputs : (offer w s).inputs = .request w :: s.inputs := rfl
@[simp] theorem offer_taken : (offer w s).taken s.inputs = s := rfl

theorem withFetchWord_eq (nbits n : Nat) :
    s.withFetchWord nbits n = offer (tableWord nbits n) s := rfl

end Offer

end Sys2Proof.Machine
end

