-- ==== Sys2Proof/Laws/Table.lean ====
section
/-! SUPPORT. Laws/Table.lean: what the operations on the table store do: a read after a write, the
canonical form, and the table a TINIT leaves. -/

namespace Sys2Proof.Machine

namespace Memory

theorem numIntervals_pos (cfg : Config) : 0 < numIntervals cfg := Nat.two_pow_pos _

/-! ### The list of entries -/

theorem find_insert_same (m : Memory) (i : Nat) (v : Sample) : (m.insert i v).find i = some v := by
  induction m with
  | nil => simp [insert, find]
  | cons e rest ih =>
    unfold insert
    split
    · simp [find]
    · split
      · simp [find]
      · simp [find, *]

theorem find_insert_other (m : Memory) {i j : Nat} (v : Sample) (h : j ≠ i) :
    (m.insert i v).find j = m.find j := by
  induction m with
  | nil => simp [insert, find, h.symm]
  | cons e rest ih =>
    unfold insert
    split
    · rename_i he
      simp [find, h.symm, he]
    · split
      · simp [find, h.symm]
      · simp [find, ih]

theorem mem_insert {m : Memory} {i : Nat} {v : Sample} {e : Nat × Sample}
    (h : e ∈ m.insert i v) : e = (i, v) ∨ e ∈ m := by
  induction m with
  | nil => simpa [insert] using h
  | cons a rest ih =>
    unfold insert at h
    split at h
    · rcases List.mem_cons.1 h with h | h
      · exact .inl h
      · exact .inr (List.mem_cons_of_mem _ h)
    · split at h
      · rcases List.mem_cons.1 h with h | h
        · exact .inl h
        · exact .inr h
      · rcases List.mem_cons.1 h with h | h
        · exact .inr (h ▸ List.mem_cons_self)
        · exact (ih h).imp_right (List.mem_cons_of_mem _)

theorem rising_insert {m : Memory} (i : Nat) (v : Sample)
    (h : m.Pairwise fun a b => a.1 < b.1) : (m.insert i v).Pairwise fun a b => a.1 < b.1 := by
  induction m with
  | nil => simp [insert]
  | cons a rest ih =>
    have ⟨ha, hr⟩ := List.pairwise_cons.1 h
    unfold insert
    split
    · rename_i hai
      exact List.pairwise_cons.2 ⟨fun b hb => hai ▸ ha b hb, hr⟩
    · split
      · rename_i hlt
        refine List.pairwise_cons.2 ⟨fun b hb => ?_, h⟩
        rcases List.mem_cons.1 hb with hb | hb
        · exact hb ▸ hlt
        · exact Nat.lt_trans hlt (ha b hb)
      · rename_i hne hge
        refine List.pairwise_cons.2 ⟨fun b hb => ?_, ih hr⟩
        rcases mem_insert hb with hb | hb
        · subst hb; simp only; omega
        · exact ha b hb

theorem mem_erase {m : Memory} {i : Nat} {e : Nat × Sample} (h : e ∈ m.erase i) : e ∈ m := by
  induction m with
  | nil => simp [erase] at h
  | cons a rest ih =>
    unfold erase at h
    split at h
    · exact List.mem_cons_of_mem _ h
    · rcases List.mem_cons.1 h with h | h
      · exact h ▸ List.mem_cons_self
      · exact List.mem_cons_of_mem _ (ih h)

theorem rising_erase {m : Memory} (i : Nat) (h : m.Pairwise fun a b => a.1 < b.1) :
    (m.erase i).Pairwise fun a b => a.1 < b.1 := by
  induction m with
  | nil => exact h
  | cons a rest ih =>
    have ⟨ha, hr⟩ := List.pairwise_cons.1 h
    unfold erase
    split
    · exact hr
    · exact List.pairwise_cons.2 ⟨fun b hb => ha b (mem_erase hb), ih hr⟩

theorem find_none_of_lt {m : Memory} {i : Nat} (h : ∀ e ∈ m, i < e.1) : m.find i = none := by
  induction m with
  | nil => rfl
  | cons a rest ih =>
    have := h a List.mem_cons_self
    simp [find, show a.1 ≠ i by omega, ih fun e he => h e (List.mem_cons_of_mem _ he)]

theorem find_erase_same {m : Memory} {i : Nat} (h : m.Pairwise fun a b => a.1 < b.1) :
    (m.erase i).find i = none := by
  induction m with
  | nil => rfl
  | cons a rest ih =>
    have ⟨ha, hr⟩ := List.pairwise_cons.1 h
    unfold erase
    split
    · rename_i hai
      exact find_none_of_lt fun e he => hai ▸ ha e he
    · simp [find, *]

theorem find_erase_other (m : Memory) {i j : Nat} (h : j ≠ i) : (m.erase i).find j = m.find j := by
  induction m with
  | nil => rfl
  | cons a rest ih =>
    unfold erase
    split
    · rename_i hai
      simp [find, hai, h.symm]
    · simp [find, ih]

theorem mem_of_find {m : Memory} {i : Nat} {v : Sample} (h : m.find i = some v) : (i, v) ∈ m := by
  induction m with
  | nil => simp [find] at h
  | cons a rest ih =>
    unfold find at h
    split at h
    · rename_i hai
      simp only [Option.some.injEq] at h
      subst hai; subst h; exact List.mem_cons_self
    · exact List.mem_cons_of_mem _ (ih h)

/-! ### Reads and writes -/

theorem wf_iff {cfg : Config} {m : Memory} : m.wf cfg = true ↔
    (m.Pairwise fun a b => a.1 < b.1) ∧
      ∀ e ∈ m, e.1 ≤ numIntervals cfg ∧ unlisted cfg e.1 ≠ some e.2.toInt := by
  simp [wf]

theorem wf_nil (cfg : Config) : wf cfg [] = true := by simp [wf]

/-- Every write keeps the canonical form. -/
theorem write_wf {cfg : Config} {m : Memory} (i : Nat) (v : Int) (h : m.wf cfg = true) :
    (write cfg m i v).wf cfg = true := by
  obtain ⟨hr, he⟩ := wf_iff.1 h
  unfold write
  split
  · split
    · exact wf_iff.2 ⟨rising_erase i hr, fun e hm => he e (mem_erase hm)⟩
    · refine wf_iff.2 ⟨rising_insert i _ hr, fun e hm => ?_⟩
      rcases mem_insert hm with rfl | hm
      · exact ⟨by assumption, by assumption⟩
      · exact he e hm
  · exact h

/-- A read outside the index space gives no value (R35, R44). -/
theorem read_outside {cfg : Config} (m : Memory) {i : Nat} (h : numIntervals cfg < i) :
    read cfg m i = none := by
  simp [read, Nat.not_le.2 h]

theorem read_nil {cfg : Config} {i : Nat} (h : i ≤ numIntervals cfg) :
    read cfg [] i = unlisted cfg i := by
  simp [read, find, h]

/-- A read after a write to the same entry gives the value written (R38, R39). -/
theorem read_write_same {cfg : Config} {m : Memory} {i : Nat} (v : Int) (h : m.wf cfg = true)
    (hi : i ≤ numIntervals cfg) : read cfg (write cfg m i v) i = some (bits16 v).toInt := by
  obtain ⟨hr, -⟩ := wf_iff.1 h
  unfold read write
  rw [if_pos hi, if_pos hi]
  split <;> rename_i x hx <;> split at hx
  · simp [find_erase_same hr] at hx
  · rw [find_insert_same] at hx
    simp_all
  · assumption
  · simp [find_insert_same] at hx

/-- A write leaves every other entry alone (R41). -/
theorem read_write_other (cfg : Config) (m : Memory) {i j : Nat} (v : Int) (h : j ≠ i) :
    read cfg (write cfg m i v) j = read cfg m j := by
  have hf : (write cfg m i v).find j = m.find j := by
    unfold write
    split
    · split
      · exact find_erase_other m h
      · exact find_insert_other m _ h
    · rfl
  simp [read, hf]

/-! ### What TINIT leaves -/

theorem fill_wf {cfg : Config} {m : Memory} (n : Nat) (h : m.wf cfg = true) :
    (fill cfg m n).wf cfg = true := by
  induction n with
  | zero => exact h
  | succ k ih => exact write_wf _ _ ih

theorem read_fill_outside {cfg : Config} (m : Memory) {n i : Nat} (h : n ≤ i) :
    read cfg (fill cfg m n) i = read cfg m i := by
  induction n with
  | zero => rfl
  | succ k ih => rw [fill, read_write_other _ _ _ (by omega), ih (by omega)]

theorem read_fill_inside {cfg : Config} {m : Memory} {n i : Nat} (h : m.wf cfg = true) (hi : i < n)
    (hn : i ≤ numIntervals cfg) :
    read cfg (fill cfg m n) i = some (bits16 (tableValue cfg i)).toInt := by
  induction n with
  | zero => omega
  | succ k ih =>
    rw [fill]
    by_cases hk : i = k
    · subst hk
      exact read_write_same _ (fill_wf _ h) hn
    · rw [read_write_other _ _ _ hk, ih (by omega)]

end Memory

end Sys2Proof.Machine
end

