-- ==== Sys2Proof/Laws/TableValue.lean ====
section
/-! SUPPORT. Laws/TableValue.lean: the order and the range of the table formula, for every legal
width at once: every table is a selection of the one for `W_IDX = 12`. -/

namespace Sys2Proof.Machine

/-- The check behind `quarterSine_mono`: the values for `0` to `n` never fall, and the last of them is
at most the value for `above`. -/
def neverFalls (n above : Nat) : Bool :=
  match n with
  | 0 => Nat.ble (quarterSine 0) (quarterSine above)
  | k + 1 => Nat.ble (quarterSine (k + 1)) (quarterSine above) && neverFalls k (k + 1)

theorem neverFalls_full : neverFalls 4095 4096 = true := by decide +kernel

theorem quarterSine_zero : quarterSine 0 = 0 := by decide

theorem quarterSine_top : quarterSine 4096 = 32767 := by decide +kernel

theorem le_of_neverFalls {n above k : Nat} (h : neverFalls n above = true) :
    quarterSine n ≤ quarterSine above ∧
      (k < n → quarterSine k ≤ quarterSine (k + 1)) := by
  induction n generalizing above with
  | zero => exact ⟨Nat.le_of_ble_eq_true h, fun hk => absurd hk (Nat.not_lt_zero k)⟩
  | succ m ih =>
    simp only [neverFalls, Bool.and_eq_true] at h
    refine ⟨Nat.le_of_ble_eq_true h.1, fun hk => ?_⟩
    rcases Nat.lt_succ_iff_lt_or_eq.1 hk with hk | rfl
    · exact (ih h.2).2 hk
    · exact (ih h.2).1

theorem quarterSine_le_succ {k : Nat} (h : k < 4096) : quarterSine k ≤ quarterSine (k + 1) := by
  rcases Nat.lt_succ_iff_lt_or_eq.1 h with h | rfl
  · exact (le_of_neverFalls neverFalls_full).2 h
  · exact (le_of_neverFalls (k := 0) neverFalls_full).1

theorem quarterSine_mono {j k : Nat} (hjk : j ≤ k) (hk : k ≤ 4096) :
    quarterSine j ≤ quarterSine k := by
  induction k, hjk using Nat.le_induction with
  | base => exact Nat.le_refl _
  | succ m hm ih =>
    exact (ih (by omega)).trans (quarterSine_le_succ (by omega))

/-- An index of a table of any legal width, as an index of the widest one. -/
theorem scaled_le {cfg : Config} {i : Nat} (h : i ≤ numIntervals cfg) :
    i * 2 ^ (12 - cfg.wIdx) ≤ 4096 := by
  have hw : cfg.wIdx ≤ 12 := by have := cfg.legal; omega
  calc i * 2 ^ (12 - cfg.wIdx) ≤ 2 ^ cfg.wIdx * 2 ^ (12 - cfg.wIdx) := Nat.mul_le_mul_right _ h
    _ = 4096 := by rw [← Nat.pow_add, show cfg.wIdx + (12 - cfg.wIdx) = 12 by omega]

theorem tableValue_mono {cfg : Config} {i j : Nat} (hij : i ≤ j) (hj : j ≤ numIntervals cfg) :
    tableValue cfg i ≤ tableValue cfg j :=
  Int.ofNat_le.2 (quarterSine_mono (Nat.mul_le_mul_right _ hij) (scaled_le hj))

theorem tableValue_zero (cfg : Config) : tableValue cfg 0 = 0 := by
  simp [tableValue, quarterSine_zero]

theorem tableValue_top (cfg : Config) : tableValue cfg (numIntervals cfg) = 32767 := by
  have hw : cfg.wIdx ≤ 12 := by have := cfg.legal; omega
  have h : numIntervals cfg * 2 ^ (12 - cfg.wIdx) = 4096 := by
    rw [numIntervals, ← Nat.pow_add, show cfg.wIdx + (12 - cfg.wIdx) = 12 by omega]
  rw [tableValue, h, quarterSine_top]
  rfl

theorem tableValue_nonneg (cfg : Config) (i : Nat) : 0 ≤ tableValue cfg i := Int.natCast_nonneg _

theorem tableValue_le {cfg : Config} {i : Nat} (h : i ≤ numIntervals cfg) :
    tableValue cfg i ≤ 32767 :=
  (tableValue_mono h (Nat.le_refl _)).trans (tableValue_top cfg).le

/-- `bits16` loses nothing of a 16-bit signed value (R15). -/
theorem bits16_toInt {v : Int} (hlo : -32768 ≤ v) (hhi : v ≤ 32767) : (bits16 v).toInt = v := by
  rw [bits16, BitVec.toInt_ofInt]
  simp only [Int.bmod]
  omega

theorem bits16_tableValue_toInt {cfg : Config} {i : Nat} (h : i ≤ numIntervals cfg) :
    (bits16 (tableValue cfg i)).toInt = tableValue cfg i :=
  bits16_toInt (by have := tableValue_nonneg cfg i; omega) (tableValue_le h)

end Sys2Proof.Machine
end

