-- ==== Sys2Proof/Laws/Reducer.lean ====
section
/-! SUPPORT. Laws/Reducer.lean: the ranges of the reducer's signals (spec 40_sine.md R69, R71, R74). -/

namespace Sys2Proof.Machine

theorem bitField_lt (v lo width : Nat) : bitField v lo width < 2 ^ width :=
  Nat.mod_lt _ (Nat.two_pow_pos _)

theorem indexOf_lt (cfg : Config) (a : Nat) : indexOf cfg a < numIntervals cfg := bitField_lt _ _ _

theorem fracOf_lt (cfg : Config) (a : Nat) : fracOf cfg a < 2 ^ cfg.wInterp := bitField_lt _ _ _

theorem reduceAngle_lt (cfg : Config) (arg : Arg) : reduceAngle cfg arg < 0x4000 :=
  Nat.mod_lt _ (by decide)

theorem reflect_lt {cfg : Config} {idx : Nat} (fwd : Bool) (h : idx < numIntervals cfg) :
    reflect cfg fwd idx < numIntervals cfg := by
  unfold reflect
  split <;> omega

theorem reduce_ridx_lt (cfg : Config) (arg : Arg) : (reduce cfg arg).ridx < numIntervals cfg :=
  reflect_lt _ (indexOf_lt _ _)

theorem reduce_frac_lt (cfg : Config) (arg : Arg) : (reduce cfg arg).frac < 2 ^ cfg.wInterp :=
  fracOf_lt _ _

/-- The four widths add up to 14 bits: quadrant, index, interpolation and residual (R58). -/
theorem widths_add (cfg : Config) : offInterp cfg + cfg.wInterp + cfg.wIdx = 12 := by
  have := cfg.legal
  simp only [offInterp, offIdx]
  omega

theorem offIdx_eq (cfg : Config) : offIdx cfg = offInterp cfg + cfg.wInterp := by
  have := cfg.legal
  simp only [offInterp, offIdx]
  omega

theorem rconst_lt (cfg : Config) : rconst cfg < 2 ^ offInterp cfg := by
  unfold rconst
  split
  · exact Nat.pow_lt_pow_right (by decide) (by omega)
  · exact Nat.two_pow_pos _

end Sys2Proof.Machine
end

