-- ==== Sys2Proof/Laws/Interpolator.lean ====
section
/-! SUPPORT. Laws/Interpolator.lean: the ranges of the interpolator's signals between two samples
that do not fall (spec 40_sine.md R82, R86). -/

namespace Sys2Proof.Machine

theorem shiftOf_nonneg {cfg : Config} {x1 x2 : Int} (frac : Nat) (h : x1 ≤ x2) :
    0 ≤ shiftOf cfg x1 x2 frac :=
  Int.ediv_nonneg (Int.mul_nonneg (by simp only [deltaOf]; omega) (Int.natCast_nonneg _))
    (by positivity)

theorem shiftOf_le_delta {cfg : Config} {x1 x2 : Int} {frac : Nat} (h : x1 ≤ x2)
    (hf : frac < 2 ^ cfg.wInterp) : shiftOf cfg x1 x2 frac ≤ deltaOf x1 x2 := by
  have hd : 0 ≤ deltaOf x1 x2 := by simp only [deltaOf]; omega
  have hf' : (frac : Int) ≤ 2 ^ cfg.wInterp := by exact_mod_cast hf.le
  exact Int.ediv_le_of_le_mul (by positivity) (Int.mul_le_mul_of_nonneg_left hf' hd)

/-- The combine stays between the two samples (R82). -/
theorem combine_between {cfg : Config} {r : Reduced} {x1 x2 : Int} (h : x1 ≤ x2)
    (hf : r.frac < 2 ^ cfg.wInterp) : x1 ≤ combine cfg r x1 x2 ∧ combine cfg r x1 x2 ≤ x2 := by
  have h0 := shiftOf_nonneg (cfg := cfg) r.frac h
  have h1 := shiftOf_le_delta (cfg := cfg) h hf
  simp only [deltaOf] at h1
  unfold combine
  split <;> omega

end Sys2Proof.Machine
end

