-- ==== Sys2Proof/Laws/PerInstr.lean ====
section
/-! SUPPORT. Laws/PerInstr.lean: the statements made per request (LAWS.json). -/

/-- The number of the word a request encodes to, written out from the opcode table:
`OP * 2^16 + ARG` with RSVD = 0 (spec 30_encoding.md R51, R52, R63). -/
def Sys2Proof.Laws.WordNumber.Statement (i : Sys2Proof.Instr) : Prop :=
  (Sys2Proof.encode i).toNat =
    match i with
    | .sine angle => angle.toNat
    | .tlookup index => 0x10000 + index.toNat
    | .tsize => 0x20000
    | .tinit => 0x30000

theorem Sys2Proof.Laws.WordNumber.sine (angle : Sys2Proof.Arg) :
    Sys2Proof.Laws.WordNumber.Statement (.sine angle) := by
  simp [Sys2Proof.Laws.WordNumber.Statement, Sys2Proof.encode, Sys2Proof.requestWord_toNat]

theorem Sys2Proof.Laws.WordNumber.tlookup (index : Sys2Proof.Arg) :
    Sys2Proof.Laws.WordNumber.Statement (.tlookup index) := by
  simp [Sys2Proof.Laws.WordNumber.Statement, Sys2Proof.encode, Sys2Proof.requestWord_toNat]

theorem Sys2Proof.Laws.WordNumber.tsize : Sys2Proof.Laws.WordNumber.Statement .tsize := by
  simp [Sys2Proof.Laws.WordNumber.Statement, Sys2Proof.encode, Sys2Proof.requestWord_toNat]

theorem Sys2Proof.Laws.WordNumber.tinit : Sys2Proof.Laws.WordNumber.Statement .tinit := by
  simp [Sys2Proof.Laws.WordNumber.Statement, Sys2Proof.encode, Sys2Proof.requestWord_toNat]
end

