-- ==== Sys2Proof/Laws/RealSine.lean ====
section
/-! SUPPORT. Laws/RealSine.lean: how far the fixed-point sine of Machine/TableValue.lean is from the
real sine, and how far every table value is from a rounding tie (spec 41_table_access.md R96). -/

namespace Sys2Proof.Machine

/-! ### The power series on the reals -/

/-- The real counterpart of `sinSeries`, in `t` with `t^2` for `y`. -/
noncomputable def realSeries (t : ℝ) : Nat → Nat → ℝ
  | 0, _ => 1
  | n + 1, j => 1 - t ^ 2 * realSeries t n (j + 1) / (2 * j * (2 * j + 1))

theorem im_exp_term (t : ℝ) (m : ℕ) : ((Complex.I * t) ^ m / (m.factorial : ℂ)).im =
    t ^ m / m.factorial * (Complex.I ^ (m % 4)).im := by
  have h : (Complex.I * t) ^ m / (m.factorial : ℂ) =
      ((t ^ m / m.factorial : ℝ) : ℂ) * Complex.I ^ m := by
    push_cast
    ring
  rw [h, Complex.im_ofReal_mul, ← Complex.I_pow_eq_pow_mod]

theorem im_exp_sum (t : ℝ) :
    (∑ m ∈ Finset.range 22, (Complex.I * t) ^ m / (m.factorial : ℂ)).im =
      t * realSeries t 10 1 := by
  rw [Complex.im_sum]
  simp only [im_exp_term, Finset.sum_range_succ, Finset.sum_range_zero]
  norm_num [realSeries, Nat.factorial, pow_succ]
  ring

theorem sin_sub_series {t : ℝ} (h0 : 0 ≤ t) (h1 : t ≤ 1.6) :
    |Real.sin t - t * realSeries t 10 1| ≤ 1 / 10 ^ 16 := by
  have hb := Complex.exp_bound' (x := Complex.I * t) (n := 22) (by
    simp only [norm_mul, Complex.norm_I, one_mul, Complex.norm_real, Real.norm_eq_abs,
      abs_of_nonneg h0]
    norm_num
    linarith)
  have him := (Complex.abs_im_le_norm _).trans hb
  have hs : (Complex.exp (Complex.I * t)).im = Real.sin t := by
    rw [mul_comm, Complex.exp_ofReal_mul_I_im]
  rw [Complex.sub_im, hs, im_exp_sum] at him
  refine him.trans ?_
  simp only [norm_mul, Complex.norm_I, one_mul, Complex.norm_real, Real.norm_eq_abs,
    abs_of_nonneg h0]
  have hp : t ^ 22 ≤ 1.6 ^ 22 := pow_le_pow_left₀ h0 h1 22
  have hf : ((Nat.factorial 22 : ℕ) : ℝ) = 1124000727777607680000 := by norm_num [Nat.factorial]
  rw [hf]
  calc t ^ 22 / 1124000727777607680000 * 2 ≤ 1.6 ^ 22 / 1124000727777607680000 * 2 := by gcongr
    _ ≤ _ := by norm_num

/-! ### The fixed-point series against the real one -/

theorem nat_div_cast_bounds (a b : Nat) (hb : 0 < b) :
    ((a / b : Nat) : ℝ) ≤ a / b ∧ (a : ℝ) / b < (a / b : Nat) + 1 := by
  have hb' : (0 : ℝ) < b := by exact_mod_cast hb
  refine ⟨Nat.cast_div_le, ?_⟩
  rw [div_lt_iff₀ hb']
  exact_mod_cast Nat.lt_mul_of_div_lt (Nat.lt_succ_self (a / b)) hb |>.trans_eq (by rw [Nat.succ_eq_add_one])

theorem fixOne_cast : (fixOne : ℝ) = 2 ^ 60 := by norm_num [fixOne]

theorem sinSeries_close {t : ℝ} {y : Nat} (ht0 : 0 ≤ t) (ht1 : t ≤ 1.6)
    (hy1 : (y : ℝ) / 2 ^ 60 ≤ t ^ 2) (hy2 : t ^ 2 - 1 / 2 ^ 60 ≤ (y : ℝ) / 2 ^ 60) (n j : Nat)
    (hj : 1 ≤ j) :
    0 ≤ realSeries t n j ∧ realSeries t n j ≤ 1 ∧ (sinSeries y n j : ℝ) ≤ 2 ^ 60 ∧
      |(sinSeries y n j : ℝ) / 2 ^ 60 - realSeries t n j| ≤ 3 / 2 ^ 60 := by
  induction n generalizing j with
  | zero => norm_num [realSeries, sinSeries, fixOne]
  | succ n ih =>
    obtain ⟨hH0, hH1, hh1, hd⟩ := ih (j + 1) (by omega)
    set H := realSeries t n (j + 1)
    set h := sinSeries y n (j + 1)
    have ht2 : t ^ 2 ≤ 2.56 := by nlinarith
    have hcn : 6 ≤ 2 * j * (2 * j + 1) := by nlinarith
    have hc : (6 : ℝ) ≤ 2 * j * (2 * j + 1) := by exact_mod_cast hcn
    set c : ℝ := 2 * j * (2 * j + 1)
    have hcpos : 0 < c := by linarith
    have hone : 0 < fixOne * (2 * j * (2 * j + 1)) := by
      have : 0 < fixOne := by decide
      positivity
    obtain ⟨q1, q2⟩ := nat_div_cast_bounds (y * h) _ hone
    set q := y * h / (fixOne * (2 * j * (2 * j + 1)))
    have hden : ((fixOne * (2 * j * (2 * j + 1)) : Nat) : ℝ) = 2 ^ 60 * c := by
      push_cast
      rw [fixOne_cast]
    rw [hden] at q1 q2
    push_cast at q1 q2
    set u : ℝ := (y : ℝ) / 2 ^ 60
    set v : ℝ := (h : ℝ) / 2 ^ 60
    have hu0 : 0 ≤ u := by positivity
    have hv0 : 0 ≤ v := by positivity
    have hv1 : v ≤ 1 := by
      rw [div_le_one (by positivity)]
      exact hh1
    have hyh : (y : ℝ) * h / (2 ^ 60 * c) = 2 ^ 60 * (u * v / c) := by
      simp only [u, v]
      field_simp
    rw [hyh] at q1 q2
    have huv : u * v / c ≤ 2.56 / 6 := by
      apply div_le_div₀ (by norm_num) _ (by norm_num) hc
      nlinarith
    have hqle : (q : ℝ) ≤ 2 ^ 60 := by nlinarith
    have hqn : q ≤ fixOne := by
      have : (q : ℝ) ≤ (fixOne : ℝ) := by rw [fixOne_cast]; exact hqle
      exact_mod_cast this
    have hs : (sinSeries y (n + 1) j : ℝ) = 2 ^ 60 - q := by
      show ((fixOne - q : Nat) : ℝ) = _
      rw [Nat.cast_sub hqn, fixOne_cast]
    have hr : realSeries t (n + 1) j = 1 - t ^ 2 * H / c := rfl
    have hcH : 0 ≤ t ^ 2 * H / c := by positivity
    have hcH1 : t ^ 2 * H / c ≤ 2.56 / 6 := by
      apply div_le_div₀ (by norm_num) _ (by norm_num) hc
      nlinarith
    have hdiff : |u * v / c - t ^ 2 * H / c| ≤ (1 + 2.56 * 3) / 6 / 2 ^ 60 := by
      rw [← sub_div, abs_div, abs_of_pos hcpos]
      have hnum : |u * v - t ^ 2 * H| ≤ (1 + 2.56 * 3) / 2 ^ 60 := by
        have e : u * v - t ^ 2 * H = (u - t ^ 2) * v + t ^ 2 * (v - H) := by ring
        rw [e]
        refine (abs_add_le _ _).trans ?_
        rw [abs_mul, abs_mul, abs_of_nonneg hv0, abs_of_nonneg (sq_nonneg t)]
        have ha : |u - t ^ 2| ≤ 1 / 2 ^ 60 := by
          rw [abs_le]
          constructor <;> linarith
        have h1 : |u - t ^ 2| * v ≤ 1 / 2 ^ 60 * 1 := by
          apply mul_le_mul ha hv1 hv0 (by positivity)
        have h2 : t ^ 2 * |v - H| ≤ 2.56 * (3 / 2 ^ 60) := by
          apply mul_le_mul ht2 hd (abs_nonneg _) (by norm_num)
        calc _ ≤ 1 / 2 ^ 60 * 1 + 2.56 * (3 / 2 ^ 60) := add_le_add h1 h2
          _ = _ := by ring
      calc |u * v - t ^ 2 * H| / c ≤ (1 + 2.56 * 3) / 2 ^ 60 / 6 := by
            apply div_le_div₀ (by norm_num) hnum (by norm_num) hc
        _ = _ := by ring
    refine ⟨by rw [hr]; linarith, by rw [hr]; linarith, by rw [hs]; linarith [(Nat.cast_nonneg q : (0 : ℝ) ≤ q)], ?_⟩
    rw [hs, hr, sub_div, div_self (by norm_num)]
    have hq3 : |(q : ℝ) / 2 ^ 60 - u * v / c| ≤ 1 / 2 ^ 60 := by
      rw [abs_le]
      constructor
      · rw [← sub_nonneg]
        have : 0 ≤ ((q : ℝ) + 1 - 2 ^ 60 * (u * v / c)) / 2 ^ 60 := by
          apply div_nonneg _ (by norm_num)
          linarith
        calc (0 : ℝ) ≤ _ := this
          _ = _ := by ring
      · rw [sub_le_iff_le_add, div_le_iff₀ (by norm_num)]
        calc (q : ℝ) ≤ 2 ^ 60 * (u * v / c) := q1
          _ ≤ (1 / 2 ^ 60 + u * v / c) * 2 ^ 60 := by
            have : (1 / 2 ^ 60 + u * v / c) * 2 ^ 60 = 1 + 2 ^ 60 * (u * v / c) := by ring
            linarith
    have e : (1 : ℝ) - (q : ℝ) / 2 ^ 60 - (1 - t ^ 2 * H / c) =
        -(((q : ℝ) / 2 ^ 60 - u * v / c) + (u * v / c - t ^ 2 * H / c)) := by ring
    rw [e, abs_neg]
    calc _ ≤ 1 / 2 ^ 60 + (1 + 2.56 * 3) / 6 / 2 ^ 60 := (abs_add_le _ _).trans (add_le_add hq3 hdiff)
      _ ≤ _ := by norm_num

/-! ### The angle -/

theorem fixPi_close : (fixPi : ℝ) ≤ Real.pi * 2 ^ 60 ∧ Real.pi * 2 ^ 60 ≤ fixPi + 1 := by
  have h1 := Real.pi_gt_d20
  have h2 := Real.pi_lt_d20
  constructor <;> norm_num [fixPi] <;> linarith

theorem fixAngle_close {k : Nat} (hk : k ≤ 4096) :
    (fixAngle k : ℝ) / 2 ^ 60 ≤ k * Real.pi / 8192 ∧
      k * Real.pi / 8192 - 2 / 2 ^ 60 ≤ (fixAngle k : ℝ) / 2 ^ 60 := by
  obtain ⟨q1, q2⟩ := nat_div_cast_bounds (fixPi * k) 8192 (by norm_num)
  obtain ⟨p1, p2⟩ := fixPi_close
  have hk' : (k : ℝ) ≤ 4096 := by exact_mod_cast hk
  have hk0 : (0 : ℝ) ≤ k := Nat.cast_nonneg k
  push_cast at q1 q2
  change ((fixAngle k : Nat) : ℝ) ≤ _ at q1
  change _ < ((fixAngle k : Nat) : ℝ) + 1 at q2
  have hP : (fixPi : ℝ) * k ≤ Real.pi * 2 ^ 60 * k := mul_le_mul_of_nonneg_right p1 hk0
  have hQ : Real.pi * 2 ^ 60 * k ≤ (fixPi + 1) * k := mul_le_mul_of_nonneg_right p2 hk0
  constructor
  · rw [div_le_iff₀ (by norm_num)]
    linarith
  · rw [sub_le_iff_le_add, ← add_div, le_div_iff₀ (by norm_num)]
    linarith

/-- The fixed-point sine is the real sine, to within `10^-15`. -/
theorem fixSin_close {k : Nat} (hk : k ≤ 4096) :
    |(fixSin k : ℝ) / 2 ^ 60 - Real.sin (k * Real.pi / 8192)| ≤ 1 / 10 ^ 15 := by
  obtain ⟨a1, a2⟩ := fixAngle_close hk
  set x : ℝ := k * Real.pi / 8192
  set t : ℝ := (fixAngle k : ℝ) / 2 ^ 60
  have hx : x ≤ 1.6 := by
    have hk' : (k : ℝ) ≤ 4096 := by exact_mod_cast hk
    have := Real.pi_lt_d2
    have : (k : ℝ) * Real.pi ≤ 4096 * 3.15 := by nlinarith [Real.pi_pos]
    simp only [x]
    linarith
  have ht0 : 0 ≤ t := by positivity
  have ht1 : t ≤ 1.6 := a1.trans hx
  have hone : 0 < fixOne := by decide
  obtain ⟨y1, y2⟩ := nat_div_cast_bounds (fixAngle k * fixAngle k) fixOne hone
  rw [fixOne_cast] at y1 y2
  push_cast at y1 y2
  have hsq : (fixAngle k : ℝ) * fixAngle k / 2 ^ 60 = 2 ^ 60 * t ^ 2 := by
    simp only [t]
    ring
  rw [hsq] at y1 y2
  set y := fixAngle k * fixAngle k / fixOne
  obtain ⟨hH0, hH1, hh1, hd⟩ := sinSeries_close (y := y) ht0 ht1
    (by rw [div_le_iff₀ (by norm_num)]; linarith)
    (by rw [le_div_iff₀ (by norm_num)]; linarith) 10 1 (by norm_num)
  have hs := sin_sub_series ht0 ht1
  set H := realSeries t 10 1
  set h := sinSeries y 10 1
  obtain ⟨s1, s2⟩ := nat_div_cast_bounds (fixAngle k * h) fixOne hone
  change ((fixSin k : Nat) : ℝ) ≤ _ at s1
  change _ < ((fixSin k : Nat) : ℝ) + 1 at s2
  rw [fixOne_cast] at s1 s2
  push_cast at s1 s2
  have hth : (fixAngle k : ℝ) * h / 2 ^ 60 = 2 ^ 60 * (t * ((h : ℝ) / 2 ^ 60)) := by
    simp only [t]
    ring
  rw [hth] at s1 s2
  have b1 : |(fixSin k : ℝ) / 2 ^ 60 - t * ((h : ℝ) / 2 ^ 60)| ≤ 1 / 2 ^ 60 := by
    rw [abs_le]
    constructor
    · rw [neg_le_sub_iff_le_add, ← add_div, le_div_iff₀ (by norm_num)]
      linarith
    · rw [sub_le_iff_le_add, div_le_iff₀ (by norm_num)]
      linarith
  have b2 : |t * ((h : ℝ) / 2 ^ 60) - t * H| ≤ 1.6 * (3 / 2 ^ 60) := by
    rw [← mul_sub, abs_mul, abs_of_nonneg ht0]
    exact mul_le_mul ht1 hd (abs_nonneg _) (by norm_num)
  have b3 : |Real.sin t - Real.sin x| ≤ 2 / 2 ^ 60 := by
    refine (Real.abs_sin_sub_sin_le t x).trans ?_
    rw [abs_le]
    constructor <;> linarith
  have e : (fixSin k : ℝ) / 2 ^ 60 - Real.sin x =
      ((fixSin k : ℝ) / 2 ^ 60 - t * ((h : ℝ) / 2 ^ 60)) + (t * ((h : ℝ) / 2 ^ 60) - t * H) -
        (Real.sin t - t * H) + (Real.sin t - Real.sin x) := by ring
  rw [e]
  calc _ ≤ 1 / 2 ^ 60 + 1.6 * (3 / 2 ^ 60) + 1 / 10 ^ 16 + 2 / 2 ^ 60 :=
        (abs_add_le _ _).trans (add_le_add ((abs_sub _ _).trans
          (add_le_add ((abs_add_le _ _).trans (add_le_add b1 b2)) hs)) b3)
    _ ≤ _ := by norm_num

/-! ### The distance from a rounding tie -/

/-- What is left of `32767 * sin + 1/2` above its integer part, in the fixed-point scale. -/
def tieRest (k : Nat) : Nat := (32767 * fixSin k + fixOne / 2) % fixOne

/-- 0.000141 in the fixed-point scale. -/
def tieMargin : Nat := fixOne / 1000000 * 141

/-- The check behind `tieRest_far`: no value for an index below `n` is within 0.000141 of a tie. -/
def farFromTies (n : Nat) : Bool :=
  match n with
  | 0 => true
  | k + 1 =>
    Nat.ble tieMargin (tieRest k) && (Nat.ble (tieRest k + tieMargin) fixOne && farFromTies k)

theorem farFromTies_full : farFromTies 4097 = true := by decide +kernel

theorem tieRest_far {k : Nat} (h : k ≤ 4096) :
    tieMargin ≤ tieRest k ∧ tieRest k + tieMargin ≤ fixOne := by
  have key : ∀ n, farFromTies n = true → k < n →
      tieMargin ≤ tieRest k ∧ tieRest k + tieMargin ≤ fixOne := by
    intro n
    induction n with
    | zero => intro _ hk; exact absurd hk (Nat.not_lt_zero k)
    | succ m ih =>
      intro hn hk
      simp only [farFromTies, Bool.and_eq_true] at hn
      rcases Nat.lt_succ_iff_lt_or_eq.1 hk with hk | rfl
      · exact ih hn.2.2 hk
      · exact ⟨Nat.le_of_ble_eq_true hn.1, Nat.le_of_ble_eq_true hn.2.1⟩
  exact key 4097 farFromTies_full (by omega)

/-- `32767 * sin` in the fixed-point scale is the table value and less than a half. -/
theorem fixSin_eq_quarterSine (k : Nat) :
    (32767 * fixSin k : ℝ) / 2 ^ 60 - quarterSine k = (tieRest k : ℝ) / 2 ^ 60 - 1 / 2 := by
  have h : fixOne * quarterSine k + tieRest k = 32767 * fixSin k + fixOne / 2 :=
    Nat.div_add_mod _ _
  have hh : ((fixOne / 2 : Nat) : ℝ) = 2 ^ 60 / 2 := by norm_num [fixOne]
  have hc : (2 : ℝ) ^ 60 * quarterSine k + tieRest k = 32767 * fixSin k + 2 ^ 60 / 2 := by
    rw [← hh, ← fixOne_cast]
    exact_mod_cast h
  have : (32767 * fixSin k : ℝ) = 2 ^ 60 * quarterSine k + tieRest k - 2 ^ 60 / 2 := by linarith
  rw [this]
  ring

end Sys2Proof.Machine
end

