-- ==== Sys2Proof/Laws/Step.lean ====
section
/-! SUPPORT. Laws/Step.lean: everything each request, and each step, can do, said once. -/

namespace Sys2Proof.Machine

theorem notReady_iff (s : State) :
    s.notReady = true ↔ s.cfg.tableMode = .generated ∧ s.ready = false := by
  simp [State.notReady]

theorem notReady_eq_false_of_ready {s : State} (h : s.ready = true) : s.notReady = false := by
  simp [State.notReady, h]

/-! ### The four requests -/

/-- Everything SINE can do. -/
theorem execSine_cases (angle : Arg) (s : State) :
    execSine angle s = .next (raiseFault .notReady s) ∨
      ∃ x1 x2, s.notReady = false ∧ s.tableRead (reduce s.cfg angle).ridx = some x1 ∧
        s.tableRead ((reduce s.cfg angle).ridx + 1) = some x2 ∧
        execSine angle s =
          .next (respond (bits16 (interpolate s.cfg (reduce s.cfg angle) x1 x2)) s) := by
  unfold execSine
  split
  · exact .inl rfl
  · split
    · rename_i x1 x2 h1 h2
      exact .inr ⟨x1, x2, Bool.eq_false_iff.2 ‹_›, h1, h2, rfl⟩
    · exact .inl rfl

/-- SINE on two entries that hold values. -/
theorem execSine_of_reads {angle : Arg} {s : State} {x1 x2 : Int} (hn : s.notReady = false)
    (h1 : s.tableRead (reduce s.cfg angle).ridx = some x1)
    (h2 : s.tableRead ((reduce s.cfg angle).ridx + 1) = some x2) :
    execSine angle s =
      .next (respond (bits16 (interpolate s.cfg (reduce s.cfg angle) x1 x2)) s) := by
  simp [execSine, hn, h1, h2]

theorem execSine_of_notReady {s : State} (angle : Arg) (h : s.notReady = true) :
    execSine angle s = .next (raiseFault .notReady s) := by
  simp [execSine, h]

/-- Everything TLOOKUP can do. -/
theorem execTlookup_cases (index : Arg) (s : State) :
    (numIntervals s.cfg < index.toNat ∧
        execTlookup index s = .next (raiseFault .lookupRange s)) ∨
      (index.toNat ≤ numIntervals s.cfg ∧
        execTlookup index s = .next (raiseFault .notReady s)) ∨
      ∃ v, index.toNat ≤ numIntervals s.cfg ∧ s.notReady = false ∧
        s.tableRead index.toNat = some v ∧
        execTlookup index s = .next (respond (bits16 v) s) := by
  unfold execTlookup lookupIndex
  split
  · exact .inl ⟨‹_›, rfl⟩
  · have hle : index.toNat ≤ numIntervals s.cfg := Nat.not_lt.1 ‹_›
    split
    · exact .inr (.inl ⟨hle, rfl⟩)
    · split
      · rename_i v hv
        exact .inr (.inr ⟨v, hle, Bool.eq_false_iff.2 ‹_›, hv, rfl⟩)
      · exact .inr (.inl ⟨hle, rfl⟩)

theorem execTlookup_of_read {index : Arg} {s : State} {v : Int}
    (hi : index.toNat ≤ numIntervals s.cfg) (hn : s.notReady = false)
    (h : s.tableRead index.toNat = some v) :
    execTlookup index s = .next (respond (bits16 v) s) := by
  simp [execTlookup, lookupIndex, Nat.not_lt.2 hi, hn, h]

theorem execTlookup_of_range {index : Arg} {s : State} (h : numIntervals s.cfg < index.toNat) :
    execTlookup index s = .next (raiseFault .lookupRange s) := by
  simp [execTlookup, lookupIndex, h]

theorem execTlookup_of_notReady {index : Arg} {s : State}
    (hi : index.toNat ≤ numIntervals s.cfg) (h : s.notReady = true) :
    execTlookup index s = .next (raiseFault .notReady s) := by
  simp [execTlookup, lookupIndex, Nat.not_lt.2 hi, h]

theorem execTsize_eq (s : State) :
    execTsize s = .next (respond (BitVec.ofNat 16 (tableSize s.cfg)) s) := rfl

/-- The state a completing TINIT responds from in generated mode: the table filled, READY set. -/
def filledState (s : State) : State :=
  { s with table := Memory.fill s.cfg s.table (tableSize s.cfg), ready := true }

/-- Everything TINIT can do. -/
theorem execTinit_cases (s : State) :
    (s.cfg.tableMode = .static ∧ execTinit s = .next (respond 0#16 s)) ∨
      (s.cfg.tableMode = .generated ∧ s.ready = true ∧
        execTinit s = .next (raiseFault .reinit s)) ∨
      (s.cfg.tableMode = .generated ∧ s.ready = false ∧
        execTinit s = .next (respond 0#16 (filledState s))) := by
  unfold execTinit
  split
  · exact .inl ⟨‹_›, rfl⟩
  · split
    · exact .inr (.inl ⟨‹_›, ‹_›, rfl⟩)
    · exact .inr (.inr ⟨‹_›, Bool.eq_false_iff.2 ‹_›, rfl⟩)

/-- Every request gives a next state, in every state: there is no stop among the four. -/
theorem exec_cases (i : Instr) (s : State) :
    (∃ c, exec i s = .next (raiseFault c s)) ∨ (∃ v, exec i s = .next (respond v s)) ∨
      (i = .tinit ∧ s.cfg.tableMode = .generated ∧ s.ready = false ∧
        exec i s = .next (respond 0#16 (filledState s))) := by
  cases i with
  | sine angle =>
    rcases execSine_cases angle s with h | ⟨x1, x2, -, -, -, h⟩
    · exact .inl ⟨_, h⟩
    · exact .inr (.inl ⟨_, h⟩)
  | tlookup index =>
    rcases execTlookup_cases index s with ⟨-, h⟩ | ⟨-, h⟩ | ⟨v, -, -, -, h⟩
    · exact .inl ⟨_, h⟩
    · exact .inl ⟨_, h⟩
    · exact .inr (.inl ⟨_, h⟩)
  | tsize => exact .inr (.inl ⟨_, execTsize_eq s⟩)
  | tinit =>
    rcases execTinit_cases s with ⟨-, h⟩ | ⟨-, -, h⟩ | ⟨hm, hr, h⟩
    · exact .inr (.inl ⟨_, h⟩)
    · exact .inl ⟨_, h⟩
    · exact .inr (.inr ⟨rfl, hm, hr, h⟩)

/-- A request does the same thing in two states that agree on the configuration, the table and
READY. -/
theorem exec_congr (i : Instr) {s t : State} (hc : t.cfg = s.cfg) (hm : t.table = s.table)
    (hr : t.ready = s.ready) :
    (∃ c, exec i s = .next (raiseFault c s) ∧ exec i t = .next (raiseFault c t)) ∨
      (∃ v, exec i s = .next (respond v s) ∧ exec i t = .next (respond v t)) ∨
      (i = .tinit ∧ s.cfg.tableMode = .generated ∧ s.ready = false ∧
        exec i s = .next (respond 0#16 (filledState s)) ∧
        exec i t = .next (respond 0#16 (filledState t))) := by
  have hread (k : Nat) : t.tableRead k = s.tableRead k := by
    unfold State.tableRead
    rw [hc, hm]
  have hn : t.notReady = s.notReady := by
    unfold State.notReady
    rw [hc, hr]
  cases i with
  | sine angle =>
    simp only [exec, execSine, hn, hread, hc]
    split
    · exact .inl ⟨_, rfl, rfl⟩
    · split
      · exact .inr (.inl ⟨_, rfl, rfl⟩)
      · exact .inl ⟨_, rfl, rfl⟩
  | tlookup index =>
    simp only [exec, execTlookup, hn, hread, hc]
    split
    · exact .inl ⟨_, rfl, rfl⟩
    · split
      · exact .inl ⟨_, rfl, rfl⟩
      · split
        · exact .inr (.inl ⟨_, rfl, rfl⟩)
        · exact .inl ⟨_, rfl, rfl⟩
  | tsize => exact .inr (.inl ⟨_, rfl, by simp [exec, execTsize, hc]⟩)
  | tinit =>
    rcases execTinit_cases s with ⟨md, e⟩ | ⟨md, rd, e⟩ | ⟨md, rd, e⟩
    · exact .inr (.inl ⟨_, e, by simp [exec, execTinit, hc, md]⟩)
    · exact .inl ⟨_, e, by simp [exec, execTinit, hc, md, hr, rd]⟩
    · exact .inr (.inr ⟨rfl, md, rd, e, by simp [exec, execTinit, hc, md, hr, rd, filledState]⟩)

/-! ### The invariant -/

/-- The invariant rests on the configuration, the table, READY and the count alone. -/
theorem State.Inv.congr {s t : State} (h : s.Inv) (hc : t.cfg = s.cfg) (hm : t.table = s.table)
    (hr : t.ready = s.ready) (hn : t.rp = t.responses.length) : t.Inv := by
  cases s
  cases t
  simp only at hc hm hr
  subst hc hm hr
  exact ⟨h.canonical, h.staticReady, h.filled, h.unfilled, hn⟩

/-- What every entry reads as after the filling of a table (R93). -/
theorem filledState_tableRead {s : State} (h : s.Inv) {i : Nat} (hi : i ≤ numIntervals s.cfg) :
    (filledState s).tableRead i = some (tableValue s.cfg i) := by
  show Memory.read s.cfg (Memory.fill s.cfg s.table (tableSize s.cfg)) i = _
  rw [Memory.read_fill_inside h.canonical (by unfold tableSize; omega) hi,
    bits16_tableValue_toInt hi]

/-! ### One step -/

theorem awaitReset_eq_some {inputs rest : List HostInput} (h : awaitReset inputs = some rest) :
    ∃ pre, (∀ x ∈ pre, x ≠ .reset) ∧ inputs = pre ++ .reset :: rest := by
  induction inputs with
  | nil => simp [awaitReset] at h
  | cons x xs ih =>
    cases x with
    | request w =>
      obtain ⟨pre, hp, he⟩ := ih h
      refine ⟨.request w :: pre, fun y hy => ?_, by rw [he, List.cons_append]⟩
      rcases List.mem_cons.1 hy with rfl | hy
      · exact HostInput.noConfusion
      · exact hp y hy
    | reset =>
      simp only [awaitReset, Option.some.injEq] at h
      exact ⟨[], by simp, by simp [h]⟩

theorem awaitReset_eq_none {inputs : List HostInput} :
    awaitReset inputs = none ↔ ∀ x ∈ inputs, x ≠ .reset := by
  induction inputs with
  | nil => simp [awaitReset]
  | cons x xs ih => cases x <;> simp [awaitReset, ih]

theorem awaitReset_append {pre rest : List HostInput} (h : ∀ x ∈ pre, x ≠ .reset) :
    awaitReset (pre ++ .reset :: rest) = some rest := by
  induction pre with
  | nil => rfl
  | cons x xs ih =>
    cases x with
    | request w => exact ih fun y hy => h y (List.mem_cons_of_mem _ hy)
    | reset => exact absurd rfl (h _ List.mem_cons_self)

/-- Everything a step that gives a next state can do: wait, reset, refuse an illegal word, or perform
a request. -/
theorem step_cases {s t : State} (h : step s = .next t) :
    (s.fault = none ∧ s.inputs = [] ∧ t = s) ∨
      (∃ pre rest, s.inputs = pre ++ .reset :: rest ∧ (∀ x ∈ pre, x ≠ .reset) ∧
        (s.fault = none → pre = []) ∧ t = takeReset (s.taken rest)) ∨
      (∃ w rest e, Accepts s w rest ∧ decode w = .error e ∧
        t = raiseFault .rsvdEnc (s.taken rest)) ∨
      (∃ w rest i, Accepts s w rest ∧ decode w = .ok i ∧ exec i (s.taken rest) = .next t) := by
  unfold step serve at h
  split at h
  · rename_i c hc
    split at h
    · rename_i rest hr
      obtain ⟨pre, hp, he⟩ := awaitReset_eq_some hr
      simp only [Host.Outcome.next.injEq] at h
      exact .inr (.inl ⟨pre, rest, he, hp, fun hn => by simp [hc] at hn, h.symm⟩)
    · simp at h
  · rename_i hf
    split at h
    · rename_i hi
      simp only [Host.Outcome.next.injEq] at h
      exact .inl ⟨hf, hi, h.symm⟩
    · rename_i rest hi
      simp only [Host.Outcome.next.injEq] at h
      exact .inr (.inl ⟨[], rest, by simp [hi], by simp, fun _ => rfl, h.symm⟩)
    · rename_i w rest hi
      unfold perform at h
      split at h
      · rename_i i hd
        exact .inr (.inr (.inr ⟨w, rest, i, ⟨hf, hi⟩, hd, h⟩))
      · rename_i e hd
        simp only [Host.Outcome.next.injEq] at h
        exact .inr (.inr (.inl ⟨w, rest, e, ⟨hf, hi⟩, hd, h.symm⟩))

/-- A step on an accepted word. -/
theorem step_of_accepts {s : State} {w : Word} {rest : List HostInput} (h : Accepts s w rest) :
    step s = perform w (s.taken rest) := by
  simp [step, serve, h.1, h.2, State.taken]

/-- A run takes its first step first. -/
theorem run_of_next {M : Host.Core} {s t : M.State} (n : Nat) (h : M.step s = .next t) :
    M.run (n + 1) s = M.run n t := by
  simp [Host.Core.run, h]

theorem run_of_fault {M : Host.Core} {s : M.State} {r : M.Fault} (n : Nat)
    (h : M.step s = .fault r) : M.run (n + 1) s = .fault r := by
  simp [Host.Core.run, h]

theorem perform_of_ok {w : Word} {i : Instr} (s : State) (h : decode w = .ok i) :
    perform w s = exec i s := by
  simp [perform, h]

theorem perform_of_error {w : Word} {e : Illegal} (s : State) (h : decode w = .error e) :
    perform w s = .next (raiseFault .rsvdEnc s) := by
  simp [perform, h]

/-- Everything a step on an accepted word can do: raise RSVD_ENC at decode, raise the request's own fault,
or complete the request with one response. -/
theorem step_accepts_cases {s : State} {w : Word} {rest : List HostInput} (h : Accepts s w rest) :
    (∃ c, step s = .next (raiseFault c (s.taken rest)) ∧
      ((∃ e, decode w = .error e ∧ c = .rsvdEnc) ∨
        ∃ i, decode w = .ok i ∧ Raises (s.taken rest) i c)) ∨
      ∃ i t v, decode w = .ok i ∧ exec i (s.taken rest) = .next t ∧ step s = .next t ∧
        t.fault = none ∧ t.inputs = rest ∧ t.responses = s.responses ++ [v] := by
  rw [step_of_accepts h]
  cases hd : decode w with
  | error e => exact .inl ⟨_, perform_of_error _ hd, .inl ⟨e, rfl, rfl⟩⟩
  | ok i =>
    rw [perform_of_ok _ hd]
    rcases exec_cases i (s.taken rest) with ⟨c, e⟩ | ⟨v, e⟩ | ⟨rfl, -, -, e⟩
    · exact .inl ⟨c, e, .inr ⟨i, rfl, e⟩⟩
    · exact .inr ⟨i, _, v, rfl, e, e, h.1, rfl, rfl⟩
    · exact .inr ⟨_, _, _, rfl, e, e, h.1, rfl, rfl⟩

end Sys2Proof.Machine
end

