-- ==== Sys2Proof/Laws/Sine.lean ====
section
/-! SUPPORT. Laws/Sine.lean: the value of SINE on a ready table, as a function of the configuration and
the reduced angle alone, and its form in each quadrant. -/

namespace Sys2Proof.Machine

/-- The size `s0` of SINE's result at the reduced angle `a`, on the table `TV`. -/
def sizeAt (cfg : Config) (a : Nat) : Int :=
  combine cfg (reducedOf cfg a) (tableValue cfg (reducedOf cfg a).ridx)
    (tableValue cfg ((reducedOf cfg a).ridx + 1))

/-- SINE's result at the reduced angle `a`, on the table `TV`. -/
def valueAt (cfg : Config) (a : Nat) : Int :=
  if isNegative (quadrantOf a) then -sizeAt cfg a else sizeAt cfg a

theorem reducedOf_ridx_lt (cfg : Config) (a : Nat) : (reducedOf cfg a).ridx < numIntervals cfg :=
  reflect_lt _ (indexOf_lt _ _)

/-- On a ready table SINE completes with `valueAt`. -/
theorem responds_sine_of_ready {s : State} (hi : s.Inv) (hr : s.ready = true) (angle : Arg) :
    Responds s (.sine angle) (bits16 (valueAt s.cfg (reduceAngle s.cfg angle))) := by
  have hlt := reduce_ridx_lt s.cfg angle
  exact execSine_of_reads (notReady_eq_false_of_ready hr) (hi.filled hr _ (by omega))
    (hi.filled hr _ (by omega))

theorem responds_tlookup_of_ready {s : State} {index : Arg} (hi : s.Inv) (hr : s.ready = true)
    (h : index.toNat ≤ numIntervals s.cfg) :
    Responds s (.tlookup index) (bits16 (tableValue s.cfg index.toNat)) :=
  execTlookup_of_read h (notReady_eq_false_of_ready hr) (hi.filled hr _ h)

/-! ### Bounds -/

/-- The size lies between its two samples (R82). -/
theorem sizeAt_between (cfg : Config) (a : Nat) :
    tableValue cfg (reducedOf cfg a).ridx ≤ sizeAt cfg a ∧
      sizeAt cfg a ≤ tableValue cfg ((reducedOf cfg a).ridx + 1) :=
  combine_between (tableValue_mono (by omega) (reducedOf_ridx_lt cfg a)) (fracOf_lt cfg a)

theorem sizeAt_nonneg (cfg : Config) (a : Nat) : 0 ≤ sizeAt cfg a :=
  (tableValue_nonneg _ _).trans (sizeAt_between cfg a).1

theorem sizeAt_le (cfg : Config) (a : Nat) : sizeAt cfg a ≤ 32767 :=
  (sizeAt_between cfg a).2.trans (tableValue_le (reducedOf_ridx_lt cfg a))

theorem valueAt_range (cfg : Config) (a : Nat) : -32767 ≤ valueAt cfg a ∧ valueAt cfg a ≤ 32767 := by
  have h0 := sizeAt_nonneg cfg a
  have h1 := sizeAt_le cfg a
  unfold valueAt
  split <;> omega

theorem bits16_valueAt_toInt (cfg : Config) (a : Nat) :
    (bits16 (valueAt cfg a)).toInt = valueAt cfg a :=
  bits16_toInt (by have := (valueAt_range cfg a).1; omega) (valueAt_range cfg a).2

/-! ### The fields of an angle in each quadrant -/

/-- A quadrant is `N` index steps. -/
theorem quadrant_eq_steps (cfg : Config) : 4096 = 2 ^ cfg.wIdx * 2 ^ offIdx cfg := by
  have hw := widths_add cfg
  have ho := offIdx_eq cfg
  rw [← Nat.pow_add, show cfg.wIdx + offIdx cfg = 12 by omega]

/-- An index step is `2^W_INTERP` interpolation steps. -/
theorem step_eq_fractions (cfg : Config) :
    2 ^ offIdx cfg = 2 ^ cfg.wInterp * 2 ^ offInterp cfg := by
  rw [offIdx_eq, ← Nat.pow_add, Nat.add_comm]

theorem indexOf_quadrant (cfg : Config) (q : Nat) {b : Nat} (hb : b < 4096) :
    indexOf cfg (q * 4096 + b) = b / 2 ^ offIdx cfg := by
  have h := quadrant_eq_steps cfg
  have hp : 0 < 2 ^ offIdx cfg := Nat.two_pow_pos _
  unfold indexOf bitField
  rw [h, ← Nat.mul_assoc, Nat.add_comm, Nat.add_mul_div_right _ _ hp, Nat.add_mul_mod_self_right,
    Nat.mod_eq_of_lt]
  rw [Nat.div_lt_iff_lt_mul hp, ← h]
  exact hb

theorem fracOf_quadrant (cfg : Config) (q b : Nat) :
    fracOf cfg (q * 4096 + b) = b / 2 ^ offInterp cfg % 2 ^ cfg.wInterp := by
  have hp : 0 < 2 ^ offInterp cfg := Nat.two_pow_pos _
  unfold fracOf bitField
  rw [quadrant_eq_steps cfg, step_eq_fractions,
    show q * (2 ^ cfg.wIdx * (2 ^ cfg.wInterp * 2 ^ offInterp cfg)) + b =
      b + (q * 2 ^ cfg.wIdx * 2 ^ cfg.wInterp) * 2 ^ offInterp cfg by ring,
    Nat.add_mul_div_right _ _ hp, Nat.add_mul_mod_self_right]

theorem quadrantOf_quadrant {q b : Nat} (hq : q < 4) (hb : b < 4096) :
    quadrantOf (q * 4096 + b) = q := by
  unfold quadrantOf bitField
  omega

/-! ### The value in each quadrant -/

/-- The value read forward, at index `i` and fraction `f`. -/
def forwardAt (cfg : Config) (i f : Nat) : Int :=
  tableValue cfg i + shiftOf cfg (tableValue cfg i) (tableValue cfg (i + 1)) f

/-- The value read in reverse, at reflected index `i` and fraction `f`. -/
def reverseAt (cfg : Config) (i f : Nat) : Int :=
  tableValue cfg (i + 1) - shiftOf cfg (tableValue cfg i) (tableValue cfg (i + 1)) f

theorem valueAt_first {cfg : Config} {b : Nat} (hb : b < 4096) : valueAt cfg b =
    forwardAt cfg (b / 2 ^ offIdx cfg) (b / 2 ^ offInterp cfg % 2 ^ cfg.wInterp) := by
  have h1 := quadrantOf_quadrant (q := 0) (by decide) hb
  have h2 := indexOf_quadrant cfg 0 hb
  have h3 := fracOf_quadrant cfg 0 b
  simp only [Nat.zero_mul, Nat.zero_add] at h1 h2 h3
  simp [valueAt, sizeAt, reducedOf, combine, h1, h2, h3, isForward, isNegative, reflect, forwardAt]

theorem valueAt_second {cfg : Config} {b : Nat} (hb : b < 4096) : valueAt cfg (4096 + b) =
    reverseAt cfg (numIntervals cfg - 1 - b / 2 ^ offIdx cfg)
      (b / 2 ^ offInterp cfg % 2 ^ cfg.wInterp) := by
  have h1 := quadrantOf_quadrant (q := 1) (by decide) hb
  have h2 := indexOf_quadrant cfg 1 hb
  have h3 := fracOf_quadrant cfg 1 b
  simp only [Nat.one_mul] at h1 h2 h3
  simp [valueAt, sizeAt, reducedOf, combine, h1, h2, h3, isForward, isNegative, reflect, reverseAt]

/-- Half a turn negates the value. -/
theorem valueAt_half_turn {cfg : Config} {b : Nat} (hb : b < 8192) :
    valueAt cfg (8192 + b) = -valueAt cfg b := by
  rcases Nat.lt_or_ge b 4096 with h | h
  · have h1 := quadrantOf_quadrant (q := 2) (by decide) h
    have h2 := indexOf_quadrant cfg 2 h
    have h3 := fracOf_quadrant cfg 2 b
    rw [valueAt_first h]
    simp only [show 2 * 4096 + b = 8192 + b by omega] at h1 h2 h3
    simp [valueAt, sizeAt, reducedOf, combine, h1, h2, h3, isForward, isNegative, reflect, forwardAt]
  · obtain ⟨c, rfl⟩ := Nat.exists_eq_add_of_le h
    have hc : c < 4096 := by omega
    have h1 := quadrantOf_quadrant (q := 3) (by decide) hc
    have h2 := indexOf_quadrant cfg 3 hc
    have h3 := fracOf_quadrant cfg 3 c
    rw [valueAt_second hc, show 8192 + (4096 + c) = 3 * 4096 + c by ring]
    simp [valueAt, sizeAt, reducedOf, combine, h1, h2, h3, isForward, isNegative, reflect, reverseAt]

/-- Just after the start of a quadrant, within the residual field, the value is the endpoint's. -/
theorem valueAt_near_endpoints {cfg : Config} {r : Nat} (hr : r < 2 ^ offInterp cfg) :
    valueAt cfg r = 0 ∧ valueAt cfg (4096 + r) = 32767 := by
  have h2 : 2 ^ offInterp cfg ≤ 2 ^ offIdx cfg :=
    Nat.pow_le_pow_right (by decide) (by rw [offIdx_eq]; omega)
  have h3 : 2 ^ offIdx cfg ≤ 4096 := by
    rw [quadrant_eq_steps cfg]
    exact Nat.le_mul_of_pos_left _ (Nat.two_pow_pos _)
  have hN := Memory.numIntervals_pos cfg
  rw [valueAt_first (by omega), valueAt_second (by omega), Nat.div_eq_of_lt hr,
    Nat.div_eq_of_lt (by omega)]
  simp only [forwardAt, reverseAt, tableValue_zero, shiftOf, prodOf, Nat.zero_mod, Nat.cast_zero,
    mul_zero, Int.zero_ediv, add_zero, sub_zero, Nat.sub_zero, true_and]
  rw [Nat.sub_add_cancel hN, tableValue_top]

theorem reduceAngle_ofNat (cfg : Config) {n : Nat} (hn : n < 65536) :
    reduceAngle cfg (BitVec.ofNat 16 n) = (n + rconst cfg) % 16384 := by
  rw [reduceAngle, BitVec.toNat_ofNat, Nat.mod_eq_of_lt hn]
  rfl

end Sys2Proof.Machine
end

