-- ==== Sys2Proof/Tests/Slice0.lean ====
section
/-! SUPPORT. Tests/Slice0.lean: the model's own tests, with expected results from the spec
(95_test_vectors.md and the rules named), and for every statement of Certificates/Slice0 a witness
that its hypotheses are met together. -/

namespace Sys2Proof.Tests

open Sys2Proof Sys2Proof.Machine

/-! ### Words written out bit by bit from spec/opcode_table.json (R51, R52, R67) -/

theorem test_decode_sine :
    decode 0b00000000000000000000010101010101#32 = .ok (.sine 0x0555#16) := by decide

theorem test_decode_sine_keeps_high_bits :
    decode 0b00000000000000001111111111111111#32 = .ok (.sine 0xFFFF#16) := by decide

theorem test_decode_tlookup :
    decode 0b00000000000000010000000000010000#32 = .ok (.tlookup 16#16) := by decide

theorem test_decode_tsize : decode 0b00000000000000100000000000000000#32 = .ok .tsize := by decide

theorem test_decode_tinit : decode 0b00000000000000110000000000000000#32 = .ok .tinit := by decide

/-- R54, and section 6 of the vectors: each reserved bit alone, and an operand where none may be. -/
theorem test_decode_refuses_reserved_words :
    decode 0b00000000000001000000000000000000#32 = .error .reservedBits ∧
    decode 0b10000000000000000000010101010101#32 = .error .reservedBits ∧
    decode 0b00000000000000100000000000000001#32 = .error .operandBits ∧
    decode 0b00000000000000111000000000000000#32 = .error .operandBits := by decide

theorem test_encode_words :
    encode (.sine 0xFFFF#16) = 0x0000FFFF#32 ∧ encode (.tlookup 16#16) = 0x00010010#32 ∧
    encode .tsize = 0x00020000#32 ∧ encode .tinit = 0x00030000#32 := by decide

/-! ### Ill-formed terms, one for each check -/

theorem test_index_out_of_range_refused :
    Instr.inRange Config.default (.tlookup 17#16) = false ∧
    Instr.inRange Config.default (.tlookup 16#16) = true := by decide

theorem test_illegal_widths_refused :
    elaborate (-1) 8 true .static = none ∧ elaborate 4 (-1) true .static = none ∧
    elaborate 4 9 true .static = none ∧ elaborate 4 8 true .static = some Config.default := by
  decide

/-- R64 to R66, and sections 5.1 and 5.2 of the vectors. -/
theorem test_lines_out_of_range_refused :
    SourceLine.wellFormed Config.default (.sine 0x10000) = false ∧
    SourceLine.wellFormed Config.default (.tlookup (-1)) = false ∧
    SourceLine.wellFormed Config.default (.sind (-1)) = false ∧
    SourceLine.wellFormed Config.default (.sind 131072) = false ∧
    SourceLine.wellFormed Config.default (.sinei 65) = false := by decide

theorem test_tables_out_of_form_refused :
    Memory.wf Config.default [(0, 0#16)] = false ∧
    Memory.wf Config.default [(17, 1#16)] = false ∧
    Memory.wf Config.default [(2, 1#16), (1, 1#16)] = false ∧
    Memory.wf Config.default [(1, 1#16), (2, 1#16)] = true := by decide

/-! ### The table formula (R25; 95_test_vectors.md 2.6 and 3.2) -/

/-- A static configuration. -/
def staticCfg (wIdx wInterp : Nat) (h : wIdx + wInterp ≤ 12) : Config :=
  ⟨wIdx, wInterp, true, .static, h⟩

theorem test_table_of_32_intervals :
    (List.range 33).map (tableValue (staticCfg 5 7 (by decide))) =
      [0, 1608, 3212, 4808, 6393, 7962, 9512, 11039, 12539, 14010, 15446, 16846, 18204, 19519,
       20787, 22005, 23170] ++ [24279, 25329, 26319, 27245, 28105, 28898, 29621, 30273, 30852,
       31356, 31785, 32137, 32412, 32609, 32728, 32767] := by decide +kernel

theorem test_table_of_4096_intervals :
    [1, 2, 1365, 1366, 4094, 4095, 4096].map (tableValue (staticCfg 12 0 (by decide))) =
      [13, 25, 16380, 16391, 32767, 32767, 32767] := by decide +kernel

/-! ### One step of each request -/

/-- What a step on the word `w` leaves: the responses given since reset and FAULT. -/
def afterWord (s : State) (w : Nat) : Option Observation :=
  match step (s.withFetchWord 32 w) with
  | .next t => some t.observation
  | .fault _ => none
  | .refused _ => none

/-- Section 2.1: quadrant 2, both conditions set. -/
theorem test_sine_quadrant_two :
    afterWord State.reset 0x00002555 = some ⟨[0xC017#16], none⟩ := by decide

/-- Section 2.2: the rounding add carries into the next quadrant. -/
theorem test_sine_rounding_carry :
    afterWord (State.resetOf (staticCfg 4 6 (by decide))) 0x00000FFE = some ⟨[0x7FFF#16], none⟩ := by
  decide

/-- Section 3.1. -/
theorem test_tlookup_padding_entry :
    afterWord State.reset 0x00010010 = some ⟨[0x7FFF#16], none⟩ := by decide

/-- Section 6: the range check comes first, before TINIT too. -/
theorem test_tlookup_out_of_range :
    afterWord (State.resetOf ⟨4, 8, true, .generated, by decide⟩) 0x00010011 =
      some ⟨[], some .lookupRange⟩ := by decide

/-- Section 4.1. -/
theorem test_tsize_widest :
    afterWord (State.resetOf (staticCfg 12 0 (by decide))) 0x00020000 =
      some ⟨[0x1001#16], none⟩ := by decide

/-- Generated mode at the default widths (section 7.2). -/
def bootState : State := State.resetOf ⟨4, 8, true, .generated, by decide⟩

/-- The state a TINIT leaves in generated mode (section 7.2). -/
def filledBoot : State := respond 0#16 (filledState bootState)

/-- Section 7.2: TINIT answers 0x0000, and TLOOKUP 8 would then read 0x5A82. -/
theorem test_tinit_fills :
    afterWord bootState 0x00030000 = some ⟨[0x0000#16], none⟩ ∧
    filledBoot.tableRead 8 = some 0x5A82 := by decide +kernel

/-- Section 7.5: the second TINIT faults with code 4. -/
theorem test_tinit_twice :
    afterWord filledBoot 0x00030000 = some ⟨[0x0000#16], some .reinit⟩ ∧
    FaultCode.reinit.number = 4 := by decide +kernel

/-- Section 6: an illegal word. -/
theorem test_illegal_word : afterWord State.reset 0x00020001 = some ⟨[], some .rsvdEnc⟩ := by decide

/-! ### The assembler's text (R64) -/

/-- `SIND 30 ; half`, a comment line, `TLOOKUP 0x10`, `TINIT`. -/
theorem test_text_assembles :
    assembleText Config.default
      [['S', 'I', 'N', 'D', ' ', '3', '0', ' ', ';', 'h'], [';', 'x'],
       ['T', 'L', 'O', 'O', 'K', 'U', 'P', ' ', '0', 'x', '1', '0'], ['T', 'I', 'N', 'I', 'T']] =
      some [0x00000555#32, 0x00010010#32, 0x00030000#32] := by decide

theorem test_text_refused :
    assembleText Config.default [['S', 'I', 'N', 'D', ' ', '-', '1']] = none ∧
    assembleText Config.default [['S', 'I', 'N', 'E', ' ', '6', '5', '5', '3', '6']] = none := by
  decide

/-! ### States that meet the invariant -/

theorem reset_inv : State.reset.Inv where
  canonical := by decide
  staticReady := fun _ => rfl
  filled := fun _ i hi => by
    show Memory.read State.reset.cfg [] i = _
    rw [Memory.read_nil hi]
    rfl
  unfilled := fun h => by simp [State.reset, Config.default] at h
  counted := rfl

/-- `W_IDX = 0`, `W_INTERP = 12`, static. -/
def narrowState : State := State.resetOf (staticCfg 0 12 (by decide))

theorem narrow_inv : narrowState.Inv where
  canonical := by decide
  staticReady := fun _ => rfl
  filled := fun _ i hi => by
    show Memory.read narrowState.cfg [] i = _
    rw [Memory.read_nil hi]
    rfl
  unfilled := fun h => by simp [narrowState, staticCfg] at h
  counted := rfl

theorem boot_inv : bootState.Inv where
  canonical := by decide
  staticReady := fun h => by simp [bootState] at h
  filled := fun h => by simp [bootState] at h
  unfilled := fun _ i hi => by
    show Memory.read bootState.cfg [] i = _
    rw [Memory.read_nil hi]
    rfl
  counted := rfl

theorem filledBoot_inv : filledBoot.Inv where
  canonical := Memory.fill_wf _ boot_inv.canonical
  staticReady := fun _ => rfl
  filled := fun _ _ hi => filledState_tableRead boot_inv hi
  unfilled := fun h => by simp [filledBoot, filledState] at h
  counted := rfl

/-- A faulted state with these inputs to come. -/
def faulted (inputs : List HostInput) : State :=
  { State.reset with fault := some .lookupRange, inputs := inputs }

/-- The reset state with these inputs to come. -/
def presented (inputs : List HostInput) : State := { State.reset with inputs := inputs }

theorem presented_inv (inputs : List HostInput) : (presented inputs).Inv :=
  reset_inv.congr rfl rfl rfl rfl

/-! ### Witnesses: the hypotheses of each statement, met together -/

theorem witness_ElaborationAcceptsTheLegalWidths :
    ((0 : Int) ≤ 12 ∧ (0 : Int) ≤ 0 ∧ (12 : Int) + 0 ≤ 12) ∧
    ¬((0 : Int) ≤ 12 ∧ (0 : Int) ≤ 1 ∧ (12 : Int) + 1 ≤ 12) := by decide

theorem witness_DerivedConstantsOfAConfiguration :
    (staticCfg 4 6 (by decide)).roundEn = true ∧ offInterp (staticCfg 4 6 (by decide)) = 2 ∧
    offInterp Config.default = 0 ∧ Config.default.wIdx = 4 ∧ Config.default.wInterp = 8 := by decide

theorem witness_WordsOfTheEncodingSpace :
    (0xFFFF#32).toNat ≤ 0xFFFF ∧ 0x10000 ≤ (0x10000#32).toNat ∧ (0x1FFFF#32).toNat ≤ 0x1FFFF ∧
    (0x20000#32).toNat = 0x20000 ∧ (0x30000#32).toNat = 0x30000 ∧
    0x20000 < (0x20001#32).toNat ∧ (0x20001#32).toNat ≠ 0x30000 ∧
    Accepts (presented [.request 0x20001#32]) 0x20001#32 [] := by
  refine ⟨by decide, by decide, by decide, by decide, by decide, by decide, by decide, rfl, rfl⟩

theorem witness_StepPerformsTheDecodedRequest :
    Accepts (presented [.request 0x10010#32]) 0x10010#32 [] ∧
    decode 0x10010#32 = .ok (.tlookup 16#16) ∧ (Instr.tlookup 16#16).wellFormed = true :=
  ⟨⟨rfl, rfl⟩, by decide, rfl⟩

theorem witness_IllegalWordsRaiseRsvdEnc :
    Accepts (presented [.request 0x40000#32]) 0x40000#32 [] ∧ (0x40000#32).toNat / 2 ^ 18 ≠ 0 ∧
    Accepts (presented [.request 0x20001#32]) 0x20001#32 [] ∧
    2 ≤ (0x20001#32).toNat / 2 ^ 16 % 4 ∧ (0x20001#32).toNat % 2 ^ 16 ≠ 0 ∧
    Accepts (presented [.request 0x30000#32]) 0x30000#32 [] ∧
    ¬((0x30000#32).toNat / 2 ^ 18 ≠ 0 ∨
      2 ≤ (0x30000#32).toNat / 2 ^ 16 % 4 ∧ (0x30000#32).toNat % 2 ^ 16 ≠ 0) :=
  ⟨⟨rfl, rfl⟩, by decide, ⟨rfl, rfl⟩, by decide, by decide, ⟨rfl, rfl⟩, by decide⟩

theorem witness_AngleFieldsLayOutTheAngle :
    (Config.default.wIdx = 4 ∧ Config.default.wInterp = 8) ∧
    ((staticCfg 4 6 (by decide)).wIdx = 4 ∧ (staticCfg 4 6 (by decide)).wInterp = 6) ∧
    ((staticCfg 5 7 (by decide)).wIdx = 5 ∧ (staticCfg 5 7 (by decide)).wInterp = 7) ∧
    ((staticCfg 0 0 (by decide)).wIdx = 0 ∧ (staticCfg 0 0 (by decide)).wInterp = 0) := by decide

theorem witness_QuadrantsDecodeAndReflect : 15 ≤ 2 ^ Config.default.wIdx - 1 := by decide

theorem witness_SineFollowsItsRule :
    (bootState.Inv ∧ bootState.cfg.tableMode = .generated ∧ bootState.ready = false) ∧
    (State.reset.Inv ∧ State.reset.ready = true) ∧ (filledBoot.Inv ∧ filledBoot.ready = true) :=
  ⟨⟨boot_inv, rfl, rfl⟩, ⟨reset_inv, rfl⟩, ⟨filledBoot_inv, rfl⟩⟩

theorem witness_SineStaysInRange : State.reset.Inv ∧ State.reset.ready = true := ⟨reset_inv, rfl⟩

theorem witness_SineEndpointsAreExact : narrowState.Inv ∧ narrowState.ready = true :=
  ⟨narrow_inv, rfl⟩

theorem witness_SineIsOddAboutHalfATurn : filledBoot.Inv ∧ filledBoot.ready = true :=
  ⟨filledBoot_inv, rfl⟩

theorem witness_SineMirrorsAboutAQuarterTurn :
    State.reset.Inv ∧ State.reset.ready = true ∧
    State.reset.cfg.wIdx + State.reset.cfg.wInterp = 12 ∧ 0x1000 ≤ 0x1000 :=
  ⟨reset_inv, rfl, rfl, Nat.le_refl _⟩

/-- The three arcs, at their ends: 0 and 0x1000, 0x1000 and 0x3000, 0x3000 and 0x3FFF. -/
theorem witness_SineIsMonotoneOnEachArc :
    (State.reset.Inv ∧ State.reset.ready = true) ∧
    (0 ≤ 0x1000 ∧ 0x1000 ≤ 0x1000 ∧ 0x1000 ≤ 0x3FFF) ∧
    (0x1000 ≤ 0x3000 ∧ 0x3000 ≤ 0x3000 ∧ 0x3000 ≤ 0x3FFF) ∧
    (0x3000 ≤ 0x3FFF ∧ 0x3FFF ≤ 0x3FFF) := ⟨⟨reset_inv, rfl⟩, by decide⟩

theorem witness_SineWrapsAtAFullTurn : State.reset.Inv ∧ State.reset.ready = true :=
  ⟨reset_inv, rfl⟩

theorem witness_SineAtTablePositions :
    State.reset.Inv ∧ State.reset.ready = true ∧ 16 ≤ 2 ^ State.reset.cfg.wIdx :=
  ⟨reset_inv, rfl, by decide⟩

theorem witness_SineReadsInsideTheTable :
    State.reset.Inv ∧ State.reset.ready = true ∧
    (reduce State.reset.cfg 0x1000#16).ridx = 2 ^ State.reset.cfg.wIdx - 1 :=
  ⟨reset_inv, rfl, by decide⟩

theorem witness_InterpolatorShiftIsNonNegative :
    (Config.default.wIdx = 4 ∧ Config.default.wInterp = 8) ∧
    0 < deltaOf (tableValue Config.default (reduce Config.default 0x00FF#16).ridx)
      (tableValue Config.default ((reduce Config.default 0x00FF#16).ridx + 1)) := by decide +kernel

theorem witness_TlookupFollowsItsRule :
    (bootState.Inv ∧ 2 ^ bootState.cfg.wIdx < (17#16).toNat) ∧
    (bootState.cfg.tableMode = .generated ∧ bootState.ready = false ∧
      (16#16).toNat ≤ 2 ^ bootState.cfg.wIdx) ∧
    (State.reset.Inv ∧ State.reset.ready = true ∧ (16#16).toNat ≤ 2 ^ State.reset.cfg.wIdx) :=
  ⟨⟨boot_inv, by decide⟩, ⟨rfl, rfl, by decide⟩, ⟨reset_inv, rfl, by decide⟩⟩

theorem witness_TinitInStaticModeDoesNothing : State.reset.cfg.tableMode = .static := rfl

theorem witness_TinitInGeneratedModeFillsOnce :
    (bootState.Inv ∧ bootState.cfg.tableMode = .generated ∧ bootState.ready = false) ∧
    (filledBoot.Inv ∧ filledBoot.cfg.tableMode = .generated ∧ filledBoot.ready = true) :=
  ⟨⟨boot_inv, rfl, rfl⟩, ⟨filledBoot_inv, rfl, rfl⟩⟩

theorem witness_BothModesGiveTheSameAnswers :
    State.reset.Inv ∧ filledBoot.Inv ∧ State.reset.cfg.tableMode = .static ∧
    filledBoot.cfg.tableMode = .generated ∧ filledBoot.ready = true ∧
    State.reset.cfg.wIdx = filledBoot.cfg.wIdx ∧
    State.reset.cfg.wInterp = filledBoot.cfg.wInterp ∧
    State.reset.cfg.roundEn = filledBoot.cfg.roundEn ∧
    (16#16).toNat ≤ 2 ^ State.reset.cfg.wIdx ∧ 2 ^ State.reset.cfg.wIdx < (17#16).toNat :=
  ⟨reset_inv, filledBoot_inv, rfl, rfl, rfl, rfl, rfl, rfl, by decide, by decide⟩

theorem witness_TableIsTheRoundedSine :
    16 ≤ 2 ^ Config.default.wIdx ∧ 4096 ≤ 2 ^ (staticCfg 12 0 (by decide)).wIdx := by decide

theorem witness_DefaultTableHasTheListedValues : Config.default.wIdx = 4 := rfl

theorem witness_TruncatingTableIsNotTheTable :
    Config.default.wIdx = 4 ∧ State.reset.Inv ∧ State.reset.ready = true ∧
    State.reset.cfg.wIdx = 4 := ⟨rfl, reset_inv, rfl, rfl⟩

theorem witness_ResetStateHasTheListedValues :
    Config.default.tableMode = .static ∧ bootState.cfg.tableMode = .generated ∧
    16 ≤ 2 ^ Config.default.wIdx := by decide

theorem witness_EveryStepKeepsTheInvariant :
    (presented [.request 0x1000#32]).Inv ∧
    ∃ t, step (presented [.request 0x1000#32]) = .next t ∧ t.responses = [0x7FFF#16] :=
  ⟨presented_inv _, ⟨_, rfl, by decide⟩⟩

theorem witness_TableWriteChangesOneEntry :
    Memory.wf bootState.cfg [(1, 5#16)] = true ∧ 16 ≤ 2 ^ bootState.cfg.wIdx ∧
    (-32768 : Int) ≤ -32768 ∧ (32767 : Int) ≤ 32767 ∧ 1 ≠ 16 := by decide

theorem witness_ReadyTableRisesFromZeroToFull :
    (State.reset.Inv ∧ State.reset.ready = true ∧ State.reset.cfg.wIdx = 4 ∧
      15 < 2 ^ State.reset.cfg.wIdx) ∧
    (narrowState.Inv ∧ narrowState.ready = true ∧ narrowState.cfg.wIdx = 0) :=
  ⟨⟨reset_inv, rfl, rfl, by decide⟩, ⟨narrow_inv, rfl, rfl⟩⟩

/-- A TINIT changes READY in generated mode, and a reset changes it back. -/
theorem witness_TableAndReadyChangeOnlyByTinitOrReset :
    (presented []).cfg.tableMode = .static ∧ (offer 0x30000#32 bootState).Inv ∧
    (∃ t, step (offer 0x30000#32 bootState) = .next t ∧ t.ready ≠ bootState.ready) ∧
    ({ filledBoot with inputs := [.reset] } : State).Inv ∧
    ∃ t, step { filledBoot with inputs := [.reset] } = .next t ∧ t.ready ≠ filledBoot.ready :=
  ⟨rfl, boot_inv.congr rfl rfl rfl rfl, ⟨filledBoot, rfl, by decide⟩,
    filledBoot_inv.congr rfl rfl rfl rfl, ⟨_, rfl, by decide⟩⟩

theorem witness_ReadingRequestsLeaveTheTable :
    Instr.tsize ≠ .tinit ∧ exec .tsize State.reset = .next (respond 17#16 State.reset) :=
  ⟨by decide, rfl⟩

theorem witness_TinitLeavesAllButTheTable :
    exec .tinit bootState = .next filledBoot ∧ 2 ^ bootState.cfg.wIdx < 17 ∧
    exec .tinit State.reset = .next (respond 0#16 State.reset) ∧
    State.reset.cfg.tableMode = .static ∧
    exec .tinit filledBoot = .next (raiseFault .reinit filledBoot) ∧ filledBoot.ready = true :=
  ⟨rfl, by decide, rfl, rfl, rfl, rfl⟩

theorem witness_ConfigurationNeverChanges :
    step (faulted [.reset]) = .next State.reset := rfl

theorem witness_RequestCountFollowsTheResponses :
    (∃ t, step (presented [.reset]) = .next t) ∧
    (Accepts (presented [.request 0x20000#32]) 0x20000#32 [] ∧
      ∃ t, step (presented [.request 0x20000#32]) = .next t ∧ t.fault = none) ∧
    (Accepts (presented [.request 0x40000#32]) 0x40000#32 [] ∧
      ∃ t, step (presented [.request 0x40000#32]) = .next t ∧ t.fault ≠ none) :=
  ⟨⟨_, rfl⟩, ⟨⟨rfl, rfl⟩, _, rfl, rfl⟩, ⟨rfl, rfl⟩, _, rfl, by decide⟩

theorem witness_ReadsHaveNoSideEffects :
    Instr.tsize ≠ .tinit ∧ State.reset.fault = none ∧
    exec .tsize State.reset = .next (respond 17#16 State.reset) ∧
    (respond 17#16 State.reset).fault = none ∧ Responds State.reset .tsize 17#16 ∧
    exec .tinit bootState = .next filledBoot :=
  ⟨by decide, rfl, rfl, rfl, rfl, rfl⟩

theorem witness_AnswersDependOnTheTableStateOnly :
    State.reset.cfg = (presented [.reset]).cfg ∧ State.reset.table = (presented [.reset]).table ∧
    State.reset.ready = (presented [.reset]).ready ∧ State.reset.fault = none ∧
    (presented [.reset]).fault = none ∧ ∃ t, exec .tsize State.reset = .next t :=
  ⟨rfl, rfl, rfl, rfl, rfl, _, rfl⟩

theorem witness_FaultsArePreciseAndSticky :
    (Accepts (presented [.request 0x10011#32]) 0x10011#32 [] ∧
      ∃ t, step (presented [.request 0x10011#32]) = .next t ∧ t.fault = some .lookupRange) ∧
    ((faulted [.request 0x20000#32]).fault = some .lookupRange ∧
      ∀ x ∈ (faulted [.request 0x20000#32]).inputs, x ≠ .reset) ∧
    ∃ t, step (faulted [.request 0x20000#32, .reset]) = .next t :=
  ⟨⟨⟨rfl, rfl⟩, _, rfl, by decide⟩, ⟨rfl, by decide⟩, _, rfl⟩

/-- Each fault and each completion occurs: TLOOKUP at N and at N + 1, SINE and TINIT before and after
the table is filled. -/
theorem witness_FaultsHaveExactlyTheirCauses :
    bootState.Inv ∧ bootState.fault = none ∧ filledBoot.Inv ∧ filledBoot.fault = none ∧
    Raises bootState (.tlookup 17#16) .lookupRange ∧ Raises bootState (.tlookup 16#16) .notReady ∧
    Raises bootState (.sine 0#16) .notReady ∧ Raises filledBoot .tinit .reinit :=
  ⟨boot_inv, rfl, filledBoot_inv, rfl, rfl, rfl, rfl, rfl⟩

theorem witness_FaultsHaveTheirPriority :
    (presented [.request 0x50011#32]).Inv ∧
    Accepts (presented [.request 0x50011#32]) 0x50011#32 [] ∧
    (offer 0x10011#32 bootState).Inv ∧ Accepts (offer 0x10011#32 bootState) 0x10011#32 [] ∧
    (offer 0x10010#32 bootState).Inv ∧ Accepts (offer 0x10010#32 bootState) 0x10010#32 [] :=
  ⟨presented_inv _, ⟨rfl, rfl⟩, boot_inv.congr rfl rfl rfl rfl, ⟨rfl, rfl⟩,
    boot_inv.congr rfl rfl rfl rfl, ⟨rfl, rfl⟩⟩

theorem witness_OnlyAFaultedBlockStops :
    step (faulted [.request 0x20000#32]) = .fault (.quiescent .lookupRange) ∧
    ∃ t, step State.reset = .next t := ⟨rfl, _, rfl⟩

/-- Section 7.4: `SINE 0x4555`, then `TLOOKUP 17`; and section 7.2's first request alone. -/
theorem witness_RunsAnswerInOrderUntilAFault :
    (presented ([0x4555#32, 0x10011#32].map .request)).fault = none ∧
    (presented ([0x4555#32, 0x10011#32].map .request)).inputs =
      [0x4555#32, 0x10011#32].map .request ∧
    (presented ([0x20000#32].map .request)).fault = none ∧
    (presented ([0x20000#32].map .request)).inputs = [0x20000#32].map .request :=
  ⟨rfl, rfl, rfl, rfl⟩

theorem witness_ResetSetsTheStateFromAnywhere :
    (faulted [.request 0x20000#32, .reset]).inputs = [.request 0x20000#32] ++ .reset :: [] ∧
    (∀ x ∈ [HostInput.request 0x20000#32], x ≠ .reset) ∧
    (faulted [.request 0x20000#32, .reset]).fault ≠ none ∧
    (presented [.reset]).inputs = [] ++ .reset :: [] ∧ (presented [.reset]).fault = none ∧
    (faulted []).cfg.tableMode = .static ∧ bootState.cfg.tableMode = .generated ∧
    16 ≤ 2 ^ (faulted []).cfg.wIdx := by
  refine ⟨rfl, by decide, by decide, rfl, rfl, rfl, rfl, by decide⟩

theorem witness_IdleBlockKeepsItsState :
    State.reset.fault = none ∧ State.reset.inputs = [] := ⟨rfl, rfl⟩

theorem witness_StaticBlockServesFromReset :
    Config.default.tableMode = .static ∧ (Instr.tlookup 16#16).inRange Config.default = true := by
  decide

theorem witness_GeneratedBlockNeedsOneTinit :
    bootState.cfg.tableMode = .generated ∧ (16#16).toNat ≤ 2 ^ bootState.cfg.wIdx ∧
    Config.default.tableMode = .static := by decide

theorem witness_LinesAssembleToWords :
    (0 : Int) ≤ 0xFFFF ∧ (0xFFFF : Int) ≤ 0xFFFF ∧ (-1 : Int) < 0 ∧ (0xFFFF : Int) < 0x10000 := by
  decide

theorem witness_SindExpandsToSine :
    (0 : Int) ≤ 131071 ∧ (131071 : Int) ≤ 131071 ∧ (-1 : Int) < 0 ∧ (131071 : Int) < 131072 := by
  decide

theorem witness_SineiExpandsToATablePosition :
    64 ≤ 4 * 2 ^ Config.default.wIdx ∧ 64 = 4 * 2 ^ Config.default.wIdx ∧
    4 * 2 ^ Config.default.wIdx < 65 ∧ (-1 : Int) < 0 := by decide

end Sys2Proof.Tests
end

/-! ## The configuration (spec 00_scope.md R9 to R11): elaboration and the derived constants -/

section
namespace Sys2Proof.Machine

/-! ### Rules of `elaborate` (R9) -/

theorem elaborate_of_legal {wIdx wInterp : Int} (roundEn : Bool) (mode : TableMode)
    (h : 0 ≤ wIdx ∧ 0 ≤ wInterp ∧ wIdx + wInterp ≤ 12) :
    elaborate wIdx wInterp roundEn mode =
      some ⟨wIdx.toNat, wInterp.toNat, roundEn, mode, by omega⟩ :=
  dif_pos h

theorem elaborate_of_illegal {wIdx wInterp : Int} (roundEn : Bool) (mode : TableMode)
    (h : ¬(0 ≤ wIdx ∧ 0 ≤ wInterp ∧ wIdx + wInterp ≤ 12)) :
    elaborate wIdx wInterp roundEn mode = none :=
  dif_neg h

/-! ### The derived constants (R10, R11) -/

/-- R10 read on the integers: the subtraction in `offIdx` loses nothing at legal widths. -/
theorem offIdx_cast (cfg : Config) : (offIdx cfg : Int) = 12 - cfg.wIdx := by
  have hsum := widths_add cfg
  have hoff := offIdx_eq cfg
  omega

/-- R10 read on the integers: the subtraction in `offInterp` loses nothing at legal widths. -/
theorem offInterp_cast (cfg : Config) : (offInterp cfg : Int) = offIdx cfg - cfg.wInterp := by
  have hoff := offIdx_eq cfg
  omega

theorem rconst_of_rounding {cfg : Config} (hen : cfg.roundEn = true) (hpos : 0 < offInterp cfg) :
    rconst cfg = 2 ^ (offInterp cfg - 1) :=
  if_pos ⟨hen, hpos⟩

theorem rconst_of_roundEn_false {cfg : Config} (hen : cfg.roundEn = false) : rconst cfg = 0 :=
  if_neg fun h => absurd h.left (by simp [hen])

/-- Without residual bits there is nothing to round: `rconst_lt` leaves only 0. -/
theorem rconst_of_offInterp_eq_zero {cfg : Config} (hzero : offInterp cfg = 0) :
    rconst cfg = 0 := by
  have hlt := rconst_lt cfg
  rw [hzero] at hlt
  omega

/-- The two fields of the default widths use up all 12 bits below the quadrant. -/
theorem offInterp_of_default_widths {cfg : Config} (hIdx : cfg.wIdx = 4)
    (hInterp : cfg.wInterp = 8) : offInterp cfg = 0 := by
  have hsum := widths_add cfg
  omega

/-! ### The obligations -/

/-- Settles O1, by the two rules of `elaborate`: widths that are not negative come back unchanged from
their natural numbers. -/
theorem elaborationAcceptsTheLegalWidths : Obligations.ElaborationAcceptsTheLegalWidths := by
  intro wIdx wInterp roundEn mode
  constructor
  · intro hlegal
    have ⟨hIdx, hInterp, _⟩ := hlegal
    exact ⟨_, elaborate_of_legal roundEn mode hlegal, Int.toNat_of_nonneg hIdx,
      Int.toNat_of_nonneg hInterp, rfl, rfl⟩
  · exact elaborate_of_illegal roundEn mode

/-- Settles O2: the constants of every configuration by their rules, the defaults by evaluation, and
RCONST at the default widths because no residual bits are left there. -/
theorem derivedConstantsOfAConfiguration : Obligations.DerivedConstantsOfAConfiguration := by
  refine ⟨fun cfg => ?everyConfig, rfl, rfl, rfl, rfl, rfl, fun cfg hIdx hInterp => ?defaultWidths⟩
  case everyConfig =>
    exact ⟨rfl, rfl, offIdx_cast cfg, offInterp_cast cfg, rconst_of_rounding,
      fun h => h.elim rconst_of_roundEn_false rconst_of_offInterp_eq_zero⟩
  case defaultWidths =>
    exact rconst_of_offInterp_eq_zero (offInterp_of_default_widths hIdx hInterp)

end Sys2Proof.Machine
end

/-! ## The state and its invariant (spec 10_state.md): the state a step can leave, the invariant
under each way a step changes the state, and the values of the default table -/

section
namespace Sys2Proof.Machine

/-! ### The next state of a step -/

/-- Everything a step on an accepted word can leave: a fault, a response, or the table filled by the
first TINIT in generated mode. -/
theorem next_of_accepts {s t : State} {w : Word} {rest : List HostInput} (ha : Accepts s w rest)
    (h : step s = .next t) :
    (∃ c, t = raiseFault c (s.taken rest)) ∨ (∃ v, t = respond v (s.taken rest)) ∨
      (decode w = .ok .tinit ∧ s.cfg.tableMode = .generated ∧ s.ready = false ∧
        t = respond 0#16 (filledState (s.taken rest))) := by
  rw [step_of_accepts ha] at h
  cases hd : decode w with
  | error e =>
    rw [perform_of_error _ hd] at h
    exact .inl ⟨_, (Host.Outcome.next.inj h).symm⟩
  | ok i =>
    rw [perform_of_ok _ hd] at h
    rcases exec_cases i (s.taken rest) with ⟨c, e⟩ | ⟨v, e⟩ | ⟨rfl, hm, hr, e⟩
    · exact .inl ⟨c, Host.Outcome.next.inj (h.symm.trans e)⟩
    · exact .inr (.inl ⟨v, Host.Outcome.next.inj (h.symm.trans e)⟩)
    · exact .inr (.inr ⟨rfl, hm, hr, Host.Outcome.next.inj (h.symm.trans e)⟩)

/-- Everything a step can do, without the request it performs: wait, reset, or take an accepted word. -/
theorem step_wait_reset_or_accept {s t : State} (h : step s = .next t) :
    (s.inputs = [] ∧ t = s) ∨
      (∃ pre rest, s.inputs = pre ++ .reset :: rest ∧ t = takeReset (s.taken rest)) ∨
      ∃ w rest, Accepts s w rest := by
  rcases step_cases h with ⟨-, hi, e⟩ | ⟨pre, rest, hi, -, -, e⟩ | ⟨w, rest, -, ha, -⟩ |
    ⟨w, rest, -, ha, -⟩
  · exact .inl ⟨hi, e⟩
  · exact .inr (.inl ⟨pre, rest, hi, e⟩)
  · exact .inr (.inr ⟨w, rest, ha⟩)
  · exact .inr (.inr ⟨w, rest, ha⟩)

/-- No step changes the configuration (R123). -/
theorem step_keeps_cfg {s t : State} (h : step s = .next t) : t.cfg = s.cfg := by
  rcases step_wait_reset_or_accept h with ⟨-, rfl⟩ | ⟨_, _, -, rfl⟩ | ⟨w, rest, ha⟩
  · rfl
  · rfl
  · rcases next_of_accepts ha h with ⟨c, rfl⟩ | ⟨v, rfl⟩ | ⟨-, -, -, rfl⟩ <;> rfl

/-! ### The state after reset (R115) -/

theorem Memory.unlisted_of_static {cfg : Config} (h : cfg.tableMode = .static) (i : Nat) :
    Memory.unlisted cfg i = some (tableValue cfg i) := by
  simp [Memory.unlisted, h]

theorem Memory.unlisted_of_generated {cfg : Config} (h : cfg.tableMode = .generated) (i : Nat) :
    Memory.unlisted cfg i = none := by
  simp [Memory.unlisted, h]

theorem resetOf_tableRead {cfg : Config} {i : Nat} (h : i ≤ numIntervals cfg) :
    (State.resetOf cfg).tableRead i = Memory.unlisted cfg i :=
  Memory.read_nil h

theorem resetOf_ready_eq_true {cfg : Config} :
    (State.resetOf cfg).ready = true ↔ cfg.tableMode = .static :=
  decide_eq_true_iff

theorem resetOf_ready_eq_false {cfg : Config} :
    (State.resetOf cfg).ready = false ↔ cfg.tableMode = .generated := by
  cases h : cfg.tableMode <;> simp [h]

/-! ### The invariant under each way a step changes the state -/

theorem resetOf_inv (cfg : Config) : (State.resetOf cfg).Inv where
  canonical := Memory.wf_nil cfg
  staticReady := resetOf_ready_eq_true.2
  filled hr i hi :=
    (resetOf_tableRead hi).trans (Memory.unlisted_of_static (resetOf_ready_eq_true.1 hr) i)
  unfilled hr i hi :=
    (resetOf_tableRead hi).trans (Memory.unlisted_of_generated (resetOf_ready_eq_false.1 hr) i)
  counted := rfl

theorem takeReset_inv (s : State) : (takeReset s).Inv :=
  (resetOf_inv s.cfg).congr rfl rfl rfl rfl

theorem taken_inv {s : State} (h : s.Inv) (rest : List HostInput) : (s.taken rest).Inv :=
  h.congr rfl rfl rfl h.counted

theorem raiseFault_inv {s : State} (h : s.Inv) (c : FaultCode) : (raiseFault c s).Inv :=
  h.congr rfl rfl rfl h.counted

theorem respond_inv {s : State} (h : s.Inv) (v : Response) : (respond v s).Inv :=
  h.congr rfl rfl rfl (by simp [h.counted])

/-- Filling the table and setting READY together keep the invariant (R93). -/
theorem filledState_inv {s : State} (h : s.Inv) : (filledState s).Inv where
  canonical := Memory.fill_wf _ h.canonical
  staticReady _ := rfl
  filled _ _ hi := filledState_tableRead h hi
  unfilled hr := Bool.noConfusion hr
  counted := h.counted

theorem step_inv {s t : State} (hs : s.Inv) (h : step s = .next t) : t.Inv := by
  rcases step_wait_reset_or_accept h with ⟨-, rfl⟩ | ⟨_, rest, -, rfl⟩ | ⟨w, rest, ha⟩
  · exact hs
  · exact takeReset_inv _
  · have hk : (s.taken rest).Inv := taken_inv hs rest
    rcases next_of_accepts ha h with ⟨c, rfl⟩ | ⟨v, rfl⟩ | ⟨-, -, -, rfl⟩
    · exact raiseFault_inv hk c
    · exact respond_inv hk v
    · exact respond_inv (filledState_inv hk) _

/-! ### The default table (R25) -/

theorem tableValue_of_wIdx_four {cfg : Config} (h : cfg.wIdx = 4) (i : Nat) :
    tableValue cfg i = quarterSine (i * 256) := by
  simp [tableValue, h]

theorem quarterSine_default_table :
    (List.range 17).map (fun i => (quarterSine (i * 256) : Int)) =
      [0, 3212, 6393, 9512, 12539, 15446, 18204, 20787, 23170, 25329, 27245, 28898, 30273, 31356,
       32137, 32609, 32767] := by decide +kernel

/-- The first of the 16 differences of the default table is the largest. -/
theorem quarterSine_default_difference :
    ∀ i < 16, quarterSine ((i + 1) * 256) ≤ quarterSine (i * 256) + 3212 := by decide +kernel

theorem quarterSine_default_first : quarterSine 256 = 3212 := by decide +kernel

/-- Two entries of a table differ by at most its whole range. -/
theorem tableValue_sub_le {cfg : Config} (i : Nat) {j : Nat} (hj : j ≤ numIntervals cfg) :
    tableValue cfg j - tableValue cfg i ≤ 32767 :=
  (Int.sub_le_self _ (tableValue_nonneg cfg i)).trans (tableValue_le hj)

theorem tableValue_succ_sub_le {cfg : Config} (h : cfg.wIdx = 4) {i : Nat}
    (hi : i < numIntervals cfg) : tableValue cfg (i + 1) - tableValue cfg i ≤ 3212 := by
  rw [numIntervals, h] at hi
  have hd := quarterSine_default_difference i hi
  rw [tableValue_of_wIdx_four h, tableValue_of_wIdx_four h]
  omega

/-! ### The obligations -/

/-- Settles O31, by the ways a step can change the state, each of which keeps the invariant. -/
theorem everyStepKeepsTheInvariant : Obligations.EveryStepKeepsTheInvariant :=
  fun _ _ => step_inv

/-- Settles O32: a ready table holds TV, whose order and range are those of the quarter sine. -/
theorem readyTableRisesFromZeroToFull : Obligations.ReadyTableRisesFromZeroToFull := by
  intro s hs hr
  have hread := hs.filled hr
  refine ⟨?first, ?last, fun i hi => ?neighbours, fun h0 => ?narrow, fun h4 => ?default⟩
  case first => rw [hread 0 (Nat.zero_le _), tableValue_zero]
  case last => rw [← numIntervals, hread _ le_rfl, tableValue_top]
  case neighbours =>
    exact ⟨_, _, hread i hi.le, hread (i + 1) hi, tableValue_mono (Nat.le_succ i) hi,
      tableValue_sub_le i hi, fun h4 => tableValue_succ_sub_le h4 hi⟩
  case narrow =>
    have hN : numIntervals s.cfg = 1 := by rw [numIntervals, h0, pow_zero]
    rw [hread 1 hN.ge, ← hN, tableValue_top]
  case default =>
    rw [hread 1 (Memory.numIntervals_pos s.cfg), tableValue_of_wIdx_four h4,
      quarterSine_default_first]
    rfl

/-- Settles O33: in static mode by the invariant after the step; otherwise a wait, a fault and a
response leave READY and every reading alone, so a change is a reset or the filling TINIT. -/
theorem tableAndReadyChangeOnlyByTinitOrReset :
    Obligations.TableAndReadyChangeOnlyByTinitOrReset := by
  intro s t hs h
  refine ⟨fun hm => (step_inv hs h).staticReady (step_keeps_cfg h ▸ hm), fun hchange => ?_⟩
  rcases step_wait_reset_or_accept h with ⟨-, rfl⟩ | ⟨pre, rest, hi, rfl⟩ | ⟨w, rest, ha⟩
  · simp at hchange
  · exact .inl ⟨pre, rest, hi, rfl⟩
  · rcases next_of_accepts ha h with ⟨c, rfl⟩ | ⟨v, rfl⟩ | ⟨hd, hm, hr, rfl⟩
    · simp at hchange
    · simp at hchange
    · exact .inr ⟨hm, hr, rfl, w, rest, ha, hd⟩

/-- Settles O38: a step on an accepted word leaves FAULT none exactly where it responds. -/
theorem requestCountFollowsTheResponses : Obligations.RequestCountFollowsTheResponses := by
  refine ⟨resetOf_rp, fun s t rest hi h => ?reset, fun s t w rest ha h => ?accepted⟩
  case reset =>
    rcases step_wait_reset_or_accept h with ⟨hw, -⟩ | ⟨_, _, -, rfl⟩ | ⟨w, _, -, hw⟩
    · simp [hi] at hw
    · rfl
    · simp [hi] at hw
  case accepted =>
    have hf : s.fault = none := ha.1
    rcases next_of_accepts ha h with ⟨c, rfl⟩ | ⟨v, rfl⟩ | ⟨-, -, -, rfl⟩
    · simp
    · simp [hf]
    · exact ⟨fun _ => ⟨rfl, _, rfl⟩, fun hne => absurd hf hne⟩

/-- Settles O27, by evaluating the quarter sine at every 256th angle. -/
theorem defaultTableHasTheListedValues : Obligations.DefaultTableHasTheListedValues := by
  intro cfg h
  rw [funext (tableValue_of_wIdx_four h)]
  exact quarterSine_default_table

/-- Settles O29: no entry is listed after reset, so each reads as its reset contents. -/
theorem resetStateHasTheListedValues : Obligations.ResetStateHasTheListedValues := by
  refine ⟨fun cfg => ⟨rfl, rfl, rfl, fun hm => ?static, fun hm => ?generated⟩, rfl, rfl, rfl, rfl⟩
  case static =>
    exact ⟨resetOf_ready_eq_true.2 hm, (resetOf_inv cfg).filled (resetOf_ready_eq_true.2 hm)⟩
  case generated =>
    exact ⟨resetOf_ready_eq_false.2 hm, (resetOf_inv cfg).unfilled (resetOf_ready_eq_false.2 hm)⟩

/-- Settles O30: no entry is listed after reset, and READY is 1 in static mode alone. -/
theorem resetMeetsTheInvariant : Obligations.ResetMeetsTheInvariant := resetOf_inv

end Sys2Proof.Machine
end

/-! ## The table store (spec 20_memory.md): a write changes one entry, and a read that completes
changes no later answer -/

section
namespace Sys2Proof.Machine

/-! ### Reads that complete -/

/-- A fault cannot be taken for a completion, which leaves FAULT none: a SINE, TLOOKUP or TSIZE that
completes has only given a response (R41). -/
theorem eq_respond_of_completes {j : Instr} {s t : State} (hj : j ≠ .tinit)
    (h : exec j s = .next t) (hf : t.fault = none) : ∃ v, t = respond v s := by
  rcases exec_cases j s with ⟨c, e⟩ | ⟨v, e⟩ | ⟨rfl, -⟩
  · obtain rfl := Host.Outcome.next.inj (h.symm.trans e)
    simp at hf
  · exact ⟨v, Host.Outcome.next.inj (h.symm.trans e)⟩
  · exact absurd rfl hj

/-! ### Two states that agree on the table state (R120) -/

/-- A request that only responds in one state only responds, with the same word, in the other: neither
a fault nor a filled table can be taken for a response. -/
theorem Responds.congr {i : Instr} {v : Response} {s t : State} (h : Responds s i v)
    (hc : t.cfg = s.cfg) (hm : t.table = s.table) (hr : t.ready = s.ready) : Responds t i v := by
  have hnext : exec i s = .next (respond v s) := h
  rcases exec_congr i hc hm hr with ⟨c, es, -⟩ | ⟨w, es, et⟩ | ⟨-, -, hready, es, -⟩
  · have hrp := congrArg State.rp (Host.Outcome.next.inj (hnext.symm.trans es))
    simp at hrp
  · have hword := congrArg State.responses (Host.Outcome.next.inj (hnext.symm.trans es))
    obtain rfl : v = w := by simpa using hword
    exact et
  · have hset := congrArg State.ready (Host.Outcome.next.inj (hnext.symm.trans es))
    simp [hready, filledState] at hset

/-- A request leaves the same FAULT, table and READY in the two states, and appends the same
responses. -/
theorem exec_next_agree {i : Instr} {s t u : State} (hc : t.cfg = s.cfg) (hm : t.table = s.table)
    (hr : t.ready = s.ready) (hf : t.fault = s.fault) (h : exec i s = .next u) :
    ∃ (u' : State) (out : List Response), exec i t = .next u' ∧
      u'.fault = u.fault ∧ u'.table = u.table ∧ u'.ready = u.ready ∧
      u.responses = s.responses ++ out ∧ u'.responses = t.responses ++ out := by
  rcases exec_congr i hc hm hr with ⟨c, es, et⟩ | ⟨v, es, et⟩ | ⟨-, -, -, es, et⟩
  all_goals obtain rfl := Host.Outcome.next.inj (h.symm.trans es)
  · exact ⟨_, [], et, rfl, hm, hr, by simp, by simp⟩
  · exact ⟨_, [v], et, hf, hm, hr, rfl, rfl⟩
  · exact ⟨_, [0#16], et, hf, by simp [filledState, hc, hm], rfl, rfl, rfl⟩

/-! ### The obligations -/

/-- Settles O34, by the rules of a read after a write; `bits16` loses nothing of a 16-bit value. -/
theorem tableWriteChangesOneEntry : Obligations.TableWriteChangesOneEntry := by
  intro cfg m i v hwf hi hlo hhi
  refine ⟨?same, fun j hj => Memory.read_write_other cfg m v hj, Memory.write_wf i v hwf⟩
  case same => rw [Memory.read_write_same v hwf hi, bits16_toInt hlo hhi]

/-- Settles O39: the state after the read differs from the one before in rp and the responses alone,
and what a request does rests on neither. -/
theorem readsHaveNoSideEffects : Obligations.ReadsHaveNoSideEffects := by
  intro i j s t hj _ hnext hf
  obtain ⟨w, rfl⟩ := eq_respond_of_completes hj hnext hf
  exact ⟨fun v hv => hv.congr rfl rfl rfl, fun u hu => exec_next_agree rfl rfl rfl rfl hu⟩

end Sys2Proof.Machine
end

/-! ## The encoding (spec 30_encoding.md): the classes of request words, the round trip of decode
and encode, the fields of the reduced angle, and the words of the assembler's lines -/

section
namespace Sys2Proof

/-! ### The classes of words (R63) -/

theorem decode_sine_class {w : Word} (h : w.toNat ≤ 0xFFFF) :
    decode w = .ok (.sine (argField w)) := by
  rw [decode_eq_arith, if_neg (by omega), if_pos (by omega)]

theorem decode_tlookup_class {w : Word} (hlo : 0x10000 ≤ w.toNat) (hhi : w.toNat ≤ 0x1FFFF) :
    decode w = .ok (.tlookup (argField w)) := by
  rw [decode_eq_arith, if_neg (by omega), if_neg (by omega), if_pos (by omega)]

theorem decode_tsize_word {w : Word} (h : w.toNat = 0x20000) : decode w = .ok .tsize := by
  simp [decode_eq_arith, h]

theorem decode_tinit_word {w : Word} (h : w.toNat = 0x30000) : decode w = .ok .tinit := by
  simp [decode_eq_arith, h]

/-- Above TSIZE's word only TINIT's is legal: the reserved bits or the operand bits are not 0. -/
theorem decode_illegal {w : Word} (hlo : 0x20000 < w.toNat) (hne : w.toNat ≠ 0x30000) :
    ∃ e, decode w = .error e := by
  rw [decode_eq_arith]
  by_cases hrsvd : w.toNat / 2 ^ 18 = 0
  · rw [if_neg (by omega), if_neg (by omega), if_neg (by omega), if_pos (by omega)]
    exact ⟨_, rfl⟩
  · rw [if_pos hrsvd]
    exact ⟨_, rfl⟩

/-! ### Decode and encode -/

theorem encode_sine_toNat (angle : Arg) : (encode (.sine angle)).toNat = angle.toNat :=
  Laws.WordNumber.sine angle

theorem encode_tlookup_toNat (index : Arg) :
    (encode (.tlookup index)).toNat = 0x10000 + index.toNat :=
  Laws.WordNumber.tlookup index

theorem encode_tsize_toNat : (encode .tsize).toNat = 0x20000 := Laws.WordNumber.tsize

theorem encode_tinit_toNat : (encode .tinit).toNat = 0x30000 := Laws.WordNumber.tinit

/-- A word whose number has the 16 low bits of an operand has that operand. -/
theorem argField_eq_of_toNat {w : Word} {arg : Arg} (h : w.toNat % 2 ^ 16 = arg.toNat) :
    argField w = arg :=
  BitVec.eq_of_toNat_eq ((argField_toNat w).trans h)

theorem decode_encode (i : Instr) : decode (encode i) = .ok i := by
  cases i with
  | sine angle =>
    have hn := encode_sine_toNat angle
    have harg := angle.isLt
    rw [decode_sine_class (by omega), argField_eq_of_toNat (arg := angle) (by omega)]
  | tlookup index =>
    have hn := encode_tlookup_toNat index
    have harg := index.isLt
    rw [decode_tlookup_class (by omega) (by omega), argField_eq_of_toNat (arg := index) (by omega)]
  | tsize => exact decode_tsize_word encode_tsize_toNat
  | tinit => exact decode_tinit_word encode_tinit_toNat

/-- Every word is the encoding of the request it decodes to, or it is illegal (R56). -/
theorem decode_cases (w : Word) :
    (∃ i, decode w = .ok i ∧ encode i = w) ∨ ∃ e, decode w = .error e := by
  have harg := argField_toNat w
  rcases Nat.lt_or_ge w.toNat 0x10000 with hsine | hlo
  · exact .inl ⟨_, decode_sine_class (by omega),
      BitVec.eq_of_toNat_eq (by rw [encode_sine_toNat]; omega)⟩
  rcases Nat.lt_or_ge w.toNat 0x20000 with hlookup | hlo
  · exact .inl ⟨_, decode_tlookup_class (by omega) (by omega),
      BitVec.eq_of_toNat_eq (by rw [encode_tlookup_toNat]; omega)⟩
  rcases eq_or_ne w.toNat 0x20000 with hsize | hsize
  · exact .inl ⟨_, decode_tsize_word hsize, BitVec.eq_of_toNat_eq hsize.symm⟩
  rcases eq_or_ne w.toNat 0x30000 with hinit | hinit
  · exact .inl ⟨_, decode_tinit_word hinit, BitVec.eq_of_toNat_eq hinit.symm⟩
  · exact .inr (decode_illegal (by omega) hinit)

theorem encode_of_decode {w : Word} {i : Instr} (h : decode w = .ok i) : encode i = w := by
  rcases decode_cases w with ⟨j, hj, he⟩ | ⟨e, he⟩
  · obtain rfl : i = j := Except.ok.inj (h.symm.trans hj)
    exact he
  · exact absurd (h.symm.trans he) (by simp)

theorem decode_eq_ok_iff {w : Word} {i : Instr} : decode w = .ok i ↔ encode i = w :=
  ⟨encode_of_decode, fun h => h ▸ decode_encode i⟩

theorem wellFormed_eq_true (i : Instr) : i.wellFormed = true := by
  cases i <;> rfl

/-- The word of a request, named by its number as an integer. -/
theorem encode_eq_ofInt {i : Instr} {v : Int} (h : ((encode i).toNat : Int) = v) :
    encode i = BitVec.ofInt 32 v := by
  rw [← h, BitVec.ofInt_natCast, BitVec.ofNat_toNat, BitVec.setWidth_eq]

end Sys2Proof

namespace Sys2Proof.Machine

/-! ### The fields of the reduced angle (R58, R59) -/

/-- A bit field stands above the bits below it. -/
theorem mod_two_pow_add (v lo width : Nat) :
    v % 2 ^ (lo + width) = bitField v lo width * 2 ^ lo + v % 2 ^ lo := by
  rw [Nat.pow_add, Nat.mod_mul, bitField, Nat.add_comm, Nat.mul_comm]

theorem quadrantOf_reduceAngle (cfg : Config) (angle : Arg) :
    quadrantOf (reduceAngle cfg angle) = reduceAngle cfg angle / 2 ^ 12 := by
  have hlt := reduceAngle_lt cfg angle
  exact Nat.mod_eq_of_lt (by omega)

theorem reduceAngle_eq_fields (cfg : Config) (angle : Arg) :
    reduceAngle cfg angle =
      quadrantOf (reduceAngle cfg angle) * 2 ^ 12 +
        indexOf cfg (reduceAngle cfg angle) * 2 ^ offIdx cfg +
        fracOf cfg (reduceAngle cfg angle) * 2 ^ offInterp cfg +
        reduceAngle cfg angle % 2 ^ offInterp cfg := by
  have hquadrant := quadrantOf_reduceAngle cfg angle
  generalize reduceAngle cfg angle = a at *
  have hindex : a % 2 ^ 12 = indexOf cfg a * 2 ^ offIdx cfg + a % 2 ^ offIdx cfg := by
    have hw := widths_add cfg
    rw [indexOf, ← mod_two_pow_add, show offIdx cfg + cfg.wIdx = 12 by rw [offIdx_eq, hw]]
  have hfrac : a % 2 ^ offIdx cfg = fracOf cfg a * 2 ^ offInterp cfg + a % 2 ^ offInterp cfg := by
    rw [fracOf, ← mod_two_pow_add, ← offIdx_eq]
  calc a = a / 2 ^ 12 * 2 ^ 12 + a % 2 ^ 12 := (Nat.div_add_mod' a _).symm
    _ = _ := by rw [hindex, hfrac, hquadrant, Nat.add_assoc, Nat.add_assoc]

theorem offInterp_of_widths {cfg : Config} {m n : Nat} (hIdx : cfg.wIdx = m)
    (hInterp : cfg.wInterp = n) : offInterp cfg = 12 - m - n := by
  rw [offInterp, offIdx, hIdx, hInterp]

/-- Where residual bits are left, RCONST is half of their span or 0 (R11). -/
theorem rconst_of_residual {cfg : Config} {k : Nat} (h : offInterp cfg = k + 1) :
    rconst cfg = if cfg.roundEn then 2 ^ k else 0 := by
  simp [rconst, h]

/-- At given widths the fields are the named bits of the pre-rounded angle. -/
theorem layout_of_widths {cfg : Config} {m n c : Nat} (hIdx : cfg.wIdx = m)
    (hInterp : cfg.wInterp = n) (hc : rconst cfg = c) (angle : Arg) :
    reduceAngle cfg angle = (angle.toNat + c) % 2 ^ 14 ∧
      quadrantOf (reduceAngle cfg angle) = reduceAngle cfg angle / 2 ^ 12 ∧
      indexOf cfg (reduceAngle cfg angle) = reduceAngle cfg angle / 2 ^ (12 - m) % 2 ^ m ∧
      fracOf cfg (reduceAngle cfg angle) = reduceAngle cfg angle / 2 ^ (12 - m - n) % 2 ^ n := by
  subst hIdx hInterp hc
  exact ⟨rfl, quadrantOf_reduceAngle cfg angle, rfl, rfl⟩

/-! ### Lines of source (R64 to R66) -/

namespace SourceLine
variable {cfg : Config}

theorem expand_of_refused {l : SourceLine} (h : l.wellFormed cfg = false) :
    l.expand cfg = none := by
  simp [expand, h]

theorem assemble_of_refused {l : SourceLine} (h : l.wellFormed cfg = false) :
    l.assemble cfg = none := by
  simp [assemble, expand_of_refused h]

theorem assemble_of_expand {l : SourceLine} {i : Instr} (h : l.expand cfg = some i) :
    l.assemble cfg = some (encode i) := by
  simp [assemble, h]

theorem expand_sine {n : Int} (hlo : 0 ≤ n) (hhi : n ≤ 0xFFFF) :
    (sine n).expand cfg = some (.sine (BitVec.ofInt 16 n)) :=
  if_pos (decide_eq_true ⟨hlo, hhi⟩)

theorem expand_tlookup {n : Int} (hlo : 0 ≤ n) (hhi : n ≤ 0xFFFF) :
    (tlookup n).expand cfg = some (.tlookup (BitVec.ofInt 16 n)) :=
  if_pos (decide_eq_true ⟨hlo, hhi⟩)

theorem expand_sind {d : Int} (hlo : 0 ≤ d) (hhi : d ≤ 131071) :
    (sind d).expand cfg = some (.sine (sindArg d.toNat)) :=
  if_pos (decide_eq_true ⟨hlo, hhi⟩)

theorem expand_sinei {i : Int} (hlo : 0 ≤ i) (hhi : i ≤ 4 * numIntervals cfg) :
    (sinei i).expand cfg = some (.sine (sineiArg cfg i.toNat)) :=
  if_pos (decide_eq_true ⟨hlo, hhi⟩)

theorem expand_sinei_refused {i : Int} (h : i < 0 ∨ 4 * numIntervals cfg < i) :
    (sinei i).expand cfg = none :=
  expand_of_refused (decide_eq_false (by omega))

end SourceLine

theorem ofInt_toNat_of_range {n : Int} (hlo : 0 ≤ n) (hhi : n ≤ 0xFFFF) :
    ((BitVec.ofInt 16 n).toNat : Int) = n := by
  rw [BitVec.toNat_ofInt]
  omega

/-- SIND's operand, computed in natural numbers, is the integer of R65. -/
theorem sindArg_toNat {d : Int} (h : 0 ≤ d) :
    ((sindArg d.toNat).toNat : Int) = d * 0x4000 / 360 % 2 ^ 16 := by
  obtain ⟨k, rfl⟩ := Int.eq_ofNat_of_zero_le h
  rw [sindArg, BitVec.toNat_ofNat, Int.toNat_natCast]
  push_cast
  rfl

/-! ### The angle at a table position (R66) -/

theorem sineiArg_eq_mod (cfg : Config) (i : Nat) :
    sineiArg cfg i = BitVec.ofNat 16 (i * 2 ^ (12 - cfg.wIdx) % 2 ^ 16) :=
  BitVec.eq_of_toNat_eq (by simp [sineiArg, offIdx])

/-- Position `i` is `i mod N` index steps into quadrant `i div N` (R66). -/
theorem position_mul_step (cfg : Config) (i : Nat) :
    i * 2 ^ offIdx cfg =
      i / numIntervals cfg * 4096 + i % numIntervals cfg * 2 ^ offIdx cfg := by
  conv_lhs => rw [← Nat.div_add_mod' i (numIntervals cfg)]
  rw [quadrant_eq_steps cfg, numIntervals, Nat.add_mul, Nat.mul_assoc]

theorem rconst_lt_step (cfg : Config) : rconst cfg < 2 ^ offIdx cfg :=
  (rconst_lt cfg).trans_le (Nat.pow_le_pow_right (by decide) (by rw [offIdx_eq]; omega))

/-- The pre-rounding constant does not carry out of the position's quadrant. -/
theorem index_step_add_rconst_lt (cfg : Config) {j : Nat} (hj : j < numIntervals cfg) :
    j * 2 ^ offIdx cfg + rconst cfg < 4096 := by
  have hstep := rconst_lt_step cfg
  calc j * 2 ^ offIdx cfg + rconst cfg < (j + 1) * 2 ^ offIdx cfg := by rw [Nat.succ_mul]; omega
    _ ≤ 2 ^ cfg.wIdx * 2 ^ offIdx cfg := Nat.mul_le_mul_right _ hj
    _ = 4096 := (quadrant_eq_steps cfg).symm

theorem reduceAngle_sineiArg {cfg : Config} {i : Nat} (hi : i ≤ 4 * numIntervals cfg) :
    reduceAngle cfg (sineiArg cfg i) =
      i / numIntervals cfg % 4 * 4096 +
        (i % numIntervals cfg * 2 ^ offIdx cfg + rconst cfg) := by
  have hN := Memory.numIntervals_pos cfg
  have hb := index_step_add_rconst_lt cfg (Nat.mod_lt i hN)
  have hq : i / numIntervals cfg ≤ 4 := (Nat.div_le_iff_le_mul hN).2 (by omega)
  rw [sineiArg, reduceAngle_ofNat cfg (by rw [position_mul_step]; omega), position_mul_step]
  omega

theorem index_step_div {cfg : Config} (j : Nat) :
    (j * 2 ^ offIdx cfg + rconst cfg) / 2 ^ offIdx cfg = j := by
  rw [Nat.add_comm, Nat.add_mul_div_right _ _ (Nat.two_pow_pos _),
    Nat.div_eq_of_lt (rconst_lt_step cfg), Nat.zero_add]

/-- Whole index steps leave the interpolation field 0, and RCONST stays in the residual bits. -/
theorem index_step_frac {cfg : Config} (j : Nat) :
    (j * 2 ^ offIdx cfg + rconst cfg) / 2 ^ offInterp cfg % 2 ^ cfg.wInterp = 0 := by
  rw [step_eq_fractions, ← Nat.mul_assoc, Nat.add_comm,
    Nat.add_mul_div_right _ _ (Nat.two_pow_pos _), Nat.div_eq_of_lt (rconst_lt cfg), Nat.zero_add,
    Nat.mul_mod_left]

theorem sineiArg_full_turn (cfg : Config) : sineiArg cfg (4 * numIntervals cfg) = 0x4000#16 := by
  rw [sineiArg, numIntervals, Nat.mul_assoc, ← quadrant_eq_steps]

/-! ### The obligations -/

/-- Settles O3: `decode_encode` one way, and the classes of words the other. -/
theorem decodeAndEncodeAgree : Obligations.DecodeAndEncodeAgree :=
  fun _ i => ⟨wellFormed_eq_true i, decode_eq_ok_iff⟩

/-- Settles O4, by the classes of words; a step on a word of no class raises RSVD_ENC. -/
theorem wordsOfTheEncodingSpace : Obligations.WordsOfTheEncodingSpace := by
  intro w
  refine ⟨fun h => ?sine, fun hlo hhi => ⟨?tlookup, fun cfg => ?inRange⟩, decode_tsize_word,
    decode_tinit_word, fun hlo hne s rest ha => ?illegal⟩
  case sine => rw [decode_sine_class h, argField_eq rfl]
  case tlookup => rw [decode_tlookup_class hlo hhi, argField_eq (n := w.toNat - 0x10000) (by omega)]
  case inRange =>
    have hindex : (BitVec.ofNat 16 (w.toNat - 0x10000)).toNat = w.toNat - 0x10000 := by
      rw [BitVec.toNat_ofNat]
      omega
    rw [Instr.inRange, decide_eq_true_iff, hindex, numIntervals]
    omega
  case illegal =>
    obtain ⟨e, he⟩ := decode_illegal hlo hne
    rw [step_of_accepts ha, perform_of_error _ he]
    rfl

/-- Settles O8: the fields make up the angle, and at given widths they are the bits those name. -/
theorem angleFieldsLayOutTheAngle : Obligations.AngleFieldsLayOutTheAngle := by
  intro cfg angle a
  refine ⟨⟨a % 2 ^ offInterp cfg, Nat.mod_lt _ (Nat.two_pow_pos _), indexOf_lt cfg a,
    fracOf_lt cfg a, bitField_lt _ _ _, reduceAngle_eq_fields cfg angle⟩,
    fun hIdx hInterp => ?widths_4_8, fun hIdx hInterp => ?widths_4_6,
    fun hIdx hInterp => ?widths_5_7, fun hIdx hInterp => ?widths_0_0⟩
  all_goals
    have hoff := offInterp_of_widths hIdx hInterp
    have hlayout := fun {c : Nat} (hc : rconst cfg = c) => layout_of_widths hIdx hInterp hc angle
  case widths_4_8 => simpa using hlayout (rconst_of_offInterp_eq_zero hoff)
  case widths_4_6 => exact hlayout (rconst_of_residual hoff)
  case widths_5_7 => simpa using hlayout (rconst_of_offInterp_eq_zero hoff)
  case widths_0_0 => simpa [Nat.mod_one] using hlayout (rconst_of_residual hoff)

/-- Settles O50: the operand of a line in range is its integer, and so is the number of its word. -/
theorem linesAssembleToWords : Obligations.LinesAssembleToWords := by
  intro cfg n
  refine ⟨fun hlo hhi => ?inRange, fun hout => ⟨?sineRefused, ?tlookupRefused⟩, rfl, rfl⟩
  case inRange =>
    have hn := ofInt_toNat_of_range hlo hhi
    rw [SourceLine.assemble_of_expand (SourceLine.expand_sine hlo hhi),
      SourceLine.assemble_of_expand (SourceLine.expand_tlookup hlo hhi),
      encode_eq_ofInt ((congrArg Nat.cast (encode_sine_toNat _)).trans hn),
      encode_eq_ofInt (v := 0x10000 + n) (by rw [encode_tlookup_toNat]; omega)]
    exact ⟨rfl, rfl⟩
  case sineRefused => exact SourceLine.assemble_of_refused (decide_eq_false (by omega))
  case tlookupRefused => exact SourceLine.assemble_of_refused (decide_eq_false (by omega))

/-- Settles O51: `sindArg` computes the rule's integer, and the three examples by evaluation. -/
theorem sindExpandsToSine : Obligations.SindExpandsToSine := by
  intro cfg d
  refine ⟨fun hlo hhi => ?word, fun hout => ?refused, ?d30, ?d90, ?d360⟩
  case word =>
    rw [SourceLine.assemble_of_expand (SourceLine.expand_sind hlo hhi),
      encode_eq_ofInt (by rw [encode_sine_toNat, sindArg_toNat hlo])]
  case refused => exact SourceLine.assemble_of_refused (decide_eq_false (by omega))
  all_goals
    rintro rfl
    exact SourceLine.expand_sind (by decide) (by decide)

/-- Settles O52: position `i` is `i mod N` whole index steps into quadrant `i div N`, and rounding
leaves it there. -/
theorem sineiExpandsToATablePosition : Obligations.SineiExpandsToATablePosition := by
  refine ⟨fun cfg i => ⟨fun hi => ?position, fun hi => ?fullTurn, fun hi => ?above⟩,
    fun cfg i hi => SourceLine.expand_sinei_refused (.inl hi), ?example20⟩
  case position =>
    have hexpand := SourceLine.expand_sinei (Int.natCast_nonneg i) (by exact_mod_cast hi)
    have hb := index_step_add_rconst_lt cfg (Nat.mod_lt i (Memory.numIntervals_pos cfg))
    intro arg
    have harg : arg = sineiArg cfg i := (sineiArg_eq_mod cfg i).symm
    rw [harg, reduceAngle_sineiArg hi]
    refine ⟨hexpand, quadrantOf_quadrant (Nat.mod_lt _ (by decide)) hb, ?_, ?_⟩
    · exact (indexOf_quadrant cfg _ hb).trans (index_step_div _)
    · exact (fracOf_quadrant cfg _ _).trans (index_step_frac _)
  case fullTurn =>
    obtain rfl : i = 4 * numIntervals cfg := hi
    rw [SourceLine.expand_sinei (Int.natCast_nonneg _) (by simp), Int.toNat_natCast,
      sineiArg_full_turn]
  case above => exact SourceLine.expand_sinei_refused (.inr (by exact_mod_cast hi))
  case example20 => exact SourceLine.expand_sinei (by decide) (by decide)

/-- Settles O5: five of the words are encodings, and the other two have a bit that must be 0. -/
theorem wordsWrittenOutBySpec : Obligations.WordsWrittenOutBySpec :=
  ⟨decode_encode (.sine 0x0555#16), decode_encode (.sine 0xFFFF#16), decode_encode (.tlookup 16#16),
    decode_encode .tsize, decode_encode .tinit, by decide, by decide⟩

/-- Settles O6, by the rules of a step on an accepted word. -/
theorem stepPerformsTheDecodedRequest : Obligations.StepPerformsTheDecodedRequest := by
  intro s w rest i ha hd _
  rw [step_of_accepts ha, perform_of_ok _ hd]
  rfl

end Sys2Proof.Machine
end

/-! ## SINE (spec 40_sine.md): the quadrant conditions, the interpolator's signals, the value along
a turn, and the rule with the properties R82 to R89 derived from it -/

section
namespace Sys2Proof.Machine

/-! ### The quadrant conditions and the reflection (R70, R71) -/

theorem isForward_iff (q : Nat) : isForward q = true ↔ q % 2 = 0 := by
  rw [isForward, beq_iff_eq, Nat.and_one_is_mod]

theorem isNegative_iff (q : Nat) : isNegative q = true ↔ q / 2 % 2 = 1 := by
  have hand : q &&& 2 = (q.testBit 1).toNat * 2 := Nat.and_two_pow q 1
  rw [isNegative, bne_iff_ne, hand, Nat.testBit_eq_decide_div_mod_eq, pow_one]
  by_cases h : q / 2 % 2 = 1 <;> simp [h]

theorem reflect_forward (cfg : Config) (idx : Nat) : reflect cfg true idx = idx := rfl

theorem reflect_reverse (cfg : Config) (idx : Nat) :
    reflect cfg false idx = numIntervals cfg - 1 - idx := rfl

/-! ### The interpolator's signals (R75 to R77) -/

theorem wInterp_le (cfg : Config) : cfg.wInterp ≤ 12 := by
  have hw := widths_add cfg
  omega

/-- The interpolation field has at most 12 bits. -/
theorem reduce_frac_le (cfg : Config) (angle : Arg) : (reduce cfg angle).frac ≤ 4095 := by
  have hlt := reduce_frac_lt cfg angle
  have hpow : 2 ^ cfg.wInterp ≤ 2 ^ 12 := Nat.pow_le_pow_right (by decide) (wInterp_le cfg)
  omega

theorem abs_prodOf_le {x1 x2 d : Int} {frac f : Nat} (hd : |deltaOf x1 x2| ≤ d) (hf : frac ≤ f) :
    |prodOf x1 x2 frac| ≤ d * f := by
  rw [prodOf, abs_mul, Nat.abs_cast]
  exact mul_le_mul hd (by exact_mod_cast hf) (by positivity) ((abs_nonneg _).trans hd)

theorem prodOf_le_of_nonneg {x1 x2 d : Int} {frac f : Nat} (h0 : 0 ≤ deltaOf x1 x2)
    (hd : deltaOf x1 x2 ≤ d) (hf : frac ≤ f) : prodOf x1 x2 frac ≤ d * f :=
  (le_abs_self _).trans (abs_prodOf_le ((abs_of_nonneg h0).trans_le hd) hf)

theorem abs_shiftOf_le {cfg : Config} {x1 x2 d : Int} {frac : Nat} (hd : |deltaOf x1 x2| ≤ d)
    (hf : frac < 2 ^ cfg.wInterp) : |shiftOf cfg x1 x2 frac| ≤ d := by
  obtain ⟨hlo, hhi⟩ := abs_le.1 (abs_prodOf_le hd hf.le)
  push_cast at hlo hhi
  refine abs_le.2 ⟨(Int.le_ediv_iff_mul_le (by positivity)).2 ?_,
    Int.ediv_le_of_le_mul (by positivity) hhi⟩
  rwa [neg_mul]

/-- Two 16-bit entries differ by less than 2^16 (R75). -/
theorem abs_deltaOf_le (x1 x2 : Sample) : |deltaOf x1.toInt x2.toInt| ≤ 65535 := by
  have hlo1 := BitVec.le_toInt x1
  have hhi1 := BitVec.toInt_lt (x := x1)
  have hlo2 := BitVec.le_toInt x2
  have hhi2 := BitVec.toInt_lt (x := x2)
  rw [deltaOf, abs_le]
  omega

theorem prodOf_nonneg {x1 x2 : Int} {frac : Nat} (h : 0 ≤ deltaOf x1 x2) :
    0 ≤ prodOf x1 x2 frac :=
  mul_nonneg h (Int.natCast_nonneg frac)

theorem shiftOf_lt_delta {cfg : Config} {x1 x2 : Int} {frac : Nat} (h : 0 < deltaOf x1 x2)
    (hf : frac < 2 ^ cfg.wInterp) : shiftOf cfg x1 x2 frac < deltaOf x1 x2 := by
  have hf' : (frac : Int) < 2 ^ cfg.wInterp := by exact_mod_cast hf
  exact Int.ediv_lt_of_lt_mul (by positivity) (mul_lt_mul_of_pos_left hf' h)

theorem shiftOf_mono_frac {cfg : Config} {x1 x2 : Int} {f g : Nat} (h : x1 ≤ x2) (hfg : f ≤ g) :
    shiftOf cfg x1 x2 f ≤ shiftOf cfg x1 x2 g :=
  Int.ediv_le_ediv (by positivity)
    (mul_le_mul_of_nonneg_left (by exact_mod_cast hfg) (Int.sub_nonneg.2 h))

theorem shiftOf_zero_frac (cfg : Config) (x1 x2 : Int) : shiftOf cfg x1 x2 0 = 0 := by
  simp [shiftOf, prodOf]

/-- A shift and the shift of the opposite fraction make up delta, or fall short of it by 1: the
floor and the ceiling of one quotient (R85). -/
theorem shiftOf_opposite {cfg : Config} (x1 x2 : Int) {f : Nat} (hf : f ≤ 2 ^ cfg.wInterp) :
    deltaOf x1 x2 - shiftOf cfg x1 x2 f - shiftOf cfg x1 x2 (2 ^ cfg.wInterp - f) = 0 ∨
      deltaOf x1 x2 - shiftOf cfg x1 x2 f - shiftOf cfg x1 x2 (2 ^ cfg.wInterp - f) = 1 := by
  have hF : (0 : Int) < 2 ^ cfg.wInterp := by positivity
  have hopp : prodOf x1 x2 (2 ^ cfg.wInterp - f) =
      -prodOf x1 x2 f + deltaOf x1 x2 * 2 ^ cfg.wInterp := by
    rw [prodOf, prodOf, Nat.cast_sub hf]
    push_cast
    ring
  rw [shiftOf, shiftOf, hopp, Int.add_mul_ediv_right _ _ hF.ne', Int.neg_ediv,
    Int.sign_eq_one_of_pos hF]
  split <;> omega

/-! ### The fields of an angle within a quadrant -/

theorem angleIndex_lt {cfg : Config} {b : Nat} (hb : b < 4096) :
    b / 2 ^ offIdx cfg < numIntervals cfg := by
  rw [← indexOf_quadrant cfg 0 hb]
  exact indexOf_lt cfg _

theorem angleFrac_lt (cfg : Config) (b : Nat) :
    b / 2 ^ offInterp cfg % 2 ^ cfg.wInterp < 2 ^ cfg.wInterp :=
  Nat.mod_lt _ (Nat.two_pow_pos _)

theorem angleIndex_eq_div (cfg : Config) (b : Nat) :
    b / 2 ^ offIdx cfg = b / 2 ^ offInterp cfg / 2 ^ cfg.wInterp := by
  rw [Nat.div_div_eq_div_mul, Nat.mul_comm, step_eq_fractions]

/-- A larger angle has a larger index, or the same index and no smaller fraction. -/
theorem angleFields_lex (cfg : Config) {b c : Nat} (h : b ≤ c) :
    b / 2 ^ offIdx cfg < c / 2 ^ offIdx cfg ∨
      b / 2 ^ offIdx cfg = c / 2 ^ offIdx cfg ∧
        b / 2 ^ offInterp cfg % 2 ^ cfg.wInterp ≤ c / 2 ^ offInterp cfg % 2 ^ cfg.wInterp := by
  refine (Nat.div_le_div_right h).lt_or_eq.imp_right fun heq => ⟨heq, ?_⟩
  have hpos : b / 2 ^ offInterp cfg ≤ c / 2 ^ offInterp cfg := Nat.div_le_div_right h
  have hb := Nat.div_add_mod (b / 2 ^ offInterp cfg) (2 ^ cfg.wInterp)
  have hc := Nat.div_add_mod (c / 2 ^ offInterp cfg) (2 ^ cfg.wInterp)
  rw [← angleIndex_eq_div] at hb hc
  rw [heq] at hb
  omega

/-! ### The value within a quadrant -/

theorem forwardAt_between {cfg : Config} {i f : Nat} (hi : i < numIntervals cfg)
    (hf : f < 2 ^ cfg.wInterp) :
    tableValue cfg i ≤ forwardAt cfg i f ∧ forwardAt cfg i f ≤ tableValue cfg (i + 1) := by
  simpa [combine, forwardAt] using
    combine_between (r := ⟨i, f, true, false⟩) (tableValue_mono (Nat.le_succ i) hi) hf

theorem reverseAt_between {cfg : Config} {i f : Nat} (hi : i < numIntervals cfg)
    (hf : f < 2 ^ cfg.wInterp) :
    tableValue cfg i ≤ reverseAt cfg i f ∧ reverseAt cfg i f ≤ tableValue cfg (i + 1) := by
  simpa [combine, reverseAt] using
    combine_between (r := ⟨i, f, false, false⟩) (tableValue_mono (Nat.le_succ i) hi) hf

/-- Whatever the fractions, a value of a lower interval is at most one of a higher interval. -/
theorem forwardAt_le_of_lt {cfg : Config} {i j f g : Nat} (hij : i < j) (hj : j < numIntervals cfg)
    (hf : f < 2 ^ cfg.wInterp) (hg : g < 2 ^ cfg.wInterp) :
    forwardAt cfg i f ≤ forwardAt cfg j g :=
  calc forwardAt cfg i f ≤ tableValue cfg (i + 1) := (forwardAt_between (hij.trans hj) hf).2
    _ ≤ tableValue cfg j := tableValue_mono hij hj.le
    _ ≤ forwardAt cfg j g := (forwardAt_between hj hg).1

theorem reverseAt_le_of_lt {cfg : Config} {i j f g : Nat} (hij : i < j) (hj : j < numIntervals cfg)
    (hf : f < 2 ^ cfg.wInterp) (hg : g < 2 ^ cfg.wInterp) :
    reverseAt cfg i f ≤ reverseAt cfg j g :=
  calc reverseAt cfg i f ≤ tableValue cfg (i + 1) := (reverseAt_between (hij.trans hj) hf).2
    _ ≤ tableValue cfg j := tableValue_mono hij hj.le
    _ ≤ reverseAt cfg j g := (reverseAt_between hj hg).1

theorem forwardAt_mono_frac {cfg : Config} {i f g : Nat} (hi : i < numIntervals cfg) (h : f ≤ g) :
    forwardAt cfg i f ≤ forwardAt cfg i g :=
  Int.add_le_add_left (shiftOf_mono_frac (tableValue_mono (Nat.le_succ i) hi) h) _

theorem reverseAt_anti_frac {cfg : Config} {i f g : Nat} (hi : i < numIntervals cfg) (h : f ≤ g) :
    reverseAt cfg i g ≤ reverseAt cfg i f :=
  Int.sub_le_sub_left (shiftOf_mono_frac (tableValue_mono (Nat.le_succ i) hi) h) _

/-- On the first half turn the value is not negative, so it is its own size. -/
theorem valueAt_nonneg {cfg : Config} {b : Nat} (hb : b < 8192) : 0 ≤ valueAt cfg b := by
  have hq : isNegative (quadrantOf b) = false := by
    rw [← Bool.not_eq_true, isNegative_iff, quadrantOf, bitField]
    omega
  rw [valueAt, if_neg (by simp [hq])]
  exact sizeAt_nonneg cfg b

theorem valueAt_eq_or_neg (cfg : Config) (a : Nat) :
    valueAt cfg a = sizeAt cfg a ∨ valueAt cfg a = -sizeAt cfg a := by
  unfold valueAt
  split
  · exact .inr rfl
  · exact .inl rfl

theorem valueAt_first_mono {cfg : Config} {b c : Nat} (h : b ≤ c) (hc : c < 4096) :
    valueAt cfg b ≤ valueAt cfg c := by
  have hi := angleIndex_lt (cfg := cfg) hc
  rw [valueAt_first (h.trans_lt hc), valueAt_first hc]
  rcases angleFields_lex cfg h with hlt | ⟨heq, hle⟩
  · exact forwardAt_le_of_lt hlt hi (angleFrac_lt cfg b) (angleFrac_lt cfg c)
  · rw [heq]
    exact forwardAt_mono_frac hi hle

theorem valueAt_second_anti {cfg : Config} {b c : Nat} (h : b ≤ c) (hc : c < 4096) :
    valueAt cfg (4096 + c) ≤ valueAt cfg (4096 + b) := by
  have hi := angleIndex_lt (cfg := cfg) hc
  rw [valueAt_second (h.trans_lt hc), valueAt_second hc]
  rcases angleFields_lex cfg h with hlt | ⟨heq, hle⟩
  · exact reverseAt_le_of_lt (Nat.sub_lt_sub_left (hlt.trans_le (Nat.le_sub_one_of_lt hi)) hlt)
      (reflect_lt false (hlt.trans hi)) (angleFrac_lt cfg c) (angleFrac_lt cfg b)
  · rw [heq]
    exact reverseAt_anti_frac (reflect_lt false hi) hle

/-! ### The value along a turn -/

/-- Half a turn negates the value, at every angle of the turn. -/
theorem valueAt_add_half_turn (cfg : Config) {a : Nat} (ha : a < 16384) :
    valueAt cfg ((8192 + a) % 16384) = -valueAt cfg a := by
  rcases Nat.lt_or_ge a 8192 with h | h
  · rw [Nat.mod_eq_of_lt (by omega), valueAt_half_turn h]
  · obtain ⟨b, rfl⟩ := Nat.exists_eq_add_of_le h
    rw [valueAt_half_turn (by omega), neg_neg, show (8192 + (8192 + b)) % 16384 = b by omega]

/-- The value after half a turn more, before the reduction. -/
theorem valueAt_half_turn_mod (cfg : Config) (n : Nat) :
    valueAt cfg ((8192 + n) % 16384) = -valueAt cfg (n % 16384) := by
  rw [← valueAt_add_half_turn cfg (Nat.mod_lt n (by decide)), Nat.add_mod_mod]

theorem residual_le (cfg : Config) : 2 ^ offInterp cfg ≤ 4096 := by
  have hw := widths_add cfg
  exact Nat.pow_le_pow_right (j := 12) (by decide) (by omega)

/-- The value never falls from 0 to a quarter turn and the residual field above it. -/
theorem valueAt_mono_of_rising {cfg : Config} {c d : Nat} (h : c ≤ d)
    (hd : d < 4096 + 2 ^ offInterp cfg) : valueAt cfg c ≤ valueAt cfg d := by
  rcases Nat.lt_or_ge d 4096 with hlt | hge
  · exact valueAt_first_mono h hlt
  · obtain ⟨r, rfl⟩ := Nat.exists_eq_add_of_le hge
    rw [(valueAt_near_endpoints (r := r) (by omega)).2]
    exact (valueAt_range cfg c).2

/-- The value never rises from a quarter to three quarters of a turn and the residual field above
it. -/
theorem valueAt_anti_of_falling {cfg : Config} {c d : Nat} (hc : 4096 ≤ c) (h : c ≤ d)
    (hd : d < 12288 + 2 ^ offInterp cfg) : valueAt cfg d ≤ valueAt cfg c := by
  have hres := residual_le cfg
  rcases Nat.lt_or_ge d 8192 with hlt | hge
  · obtain ⟨b, rfl⟩ := Nat.exists_eq_add_of_le hc
    obtain ⟨b', rfl⟩ := Nat.exists_eq_add_of_le (hc.trans h)
    exact valueAt_second_anti (by omega) (by omega)
  · obtain ⟨d, rfl⟩ := Nat.exists_eq_add_of_le hge
    rw [valueAt_half_turn (by omega)]
    rcases Nat.lt_or_ge c 8192 with hlt | hge
    · exact (Int.neg_nonpos_of_nonneg (valueAt_nonneg (by omega))).trans (valueAt_nonneg hlt)
    · obtain ⟨c, rfl⟩ := Nat.exists_eq_add_of_le hge
      rw [valueAt_half_turn (by omega)]
      exact Int.neg_le_neg (valueAt_mono_of_rising (by omega) (by omega))

/-- The value never falls on the last quarter of a turn, and the residual field after the turn. -/
theorem valueAt_mono_of_last {cfg : Config} {c d : Nat} (hc : 12288 ≤ c) (h : c ≤ d)
    (hd : d < 16384 + 2 ^ offInterp cfg) :
    valueAt cfg (c % 16384) ≤ valueAt cfg (d % 16384) := by
  have hres := residual_le cfg
  obtain ⟨c, rfl⟩ := Nat.exists_eq_add_of_le (show 8192 ≤ c by omega)
  obtain ⟨d, rfl⟩ := Nat.exists_eq_add_of_le (show 8192 ≤ d by omega)
  rw [valueAt_half_turn_mod, valueAt_half_turn_mod, Nat.mod_eq_of_lt (by omega),
    Nat.mod_eq_of_lt (by omega)]
  exact Int.neg_le_neg (valueAt_anti_of_falling (by omega) (by omega) (by omega))

/-! ### Reduced angles (R68) -/

theorem reduceAngle_eq (cfg : Config) (angle : Arg) :
    reduceAngle cfg angle = (angle.toNat + rconst cfg) % 16384 := rfl

/-- Taking an angle modulo a full turn first does not change what it reduces to (R88). -/
theorem reduceAngle_ofNat_mod (cfg : Config) (n : Nat) :
    reduceAngle cfg (BitVec.ofNat 16 (n % 0x4000)) = (n + rconst cfg) % 16384 := by
  rw [reduceAngle_ofNat cfg (by omega), Nat.mod_add_mod]

/-- Half a turn added modulo 2^16 is half a turn added modulo 2^14 (R84). -/
theorem reduceAngle_add_half_turn (cfg : Config) (angle : Arg) :
    reduceAngle cfg (angle + 0x2000#16) = (8192 + reduceAngle cfg angle) % 16384 := by
  rw [reduceAngle_eq, reduceAngle_eq, BitVec.toNat_add, BitVec.toNat_ofNat]
  omega

/-- A ready table gives SINE at the angle `n` the value of the pre-rounded, reduced `n`. -/
theorem responds_sine_ofNat {s : State} (hi : s.Inv) (hr : s.ready = true) {n : Nat}
    (hn : n < 65536) :
    Responds s (.sine (BitVec.ofNat 16 n))
      (bits16 (valueAt s.cfg ((n + rconst s.cfg) % 16384))) :=
  reduceAngle_ofNat s.cfg hn ▸ responds_sine_of_ready hi hr _

theorem responds_sine_of_value {s : State} (hi : s.Inv) (hr : s.ready = true) {n : Nat} {v : Int}
    (hn : n < 65536) (h : valueAt s.cfg ((n + rconst s.cfg) % 16384) = v) :
    Responds s (.sine (BitVec.ofNat 16 n)) (bits16 v) :=
  h ▸ responds_sine_ofNat hi hr hn

/-- SINE reads its operand through the reduction alone. -/
theorem exec_sine_congr {s : State} {angle angle' : Arg}
    (h : reduceAngle s.cfg angle = reduceAngle s.cfg angle') :
    exec (.sine angle) s = exec (.sine angle') s := by
  simp only [exec, execSine, reduce, h]

theorem responds_sine_ofNat_mod {s : State} (hi : s.Inv) (hr : s.ready = true) (n : Nat) :
    Responds s (.sine (BitVec.ofNat 16 (n % 0x4000)))
      (bits16 (valueAt s.cfg ((n + rconst s.cfg) % 16384))) :=
  reduceAngle_ofNat_mod s.cfg n ▸ responds_sine_of_ready hi hr _

/-- The four quadrant starts: what the rounding adds stays in the residual field (R83). -/
theorem valueAt_quadrant_starts (cfg : Config) :
    valueAt cfg ((0 + rconst cfg) % 16384) = 0 ∧
      valueAt cfg ((4096 + rconst cfg) % 16384) = 32767 ∧
      valueAt cfg ((8192 + rconst cfg) % 16384) = 0 ∧
      valueAt cfg ((12288 + rconst cfg) % 16384) = -32767 := by
  have hres := residual_le cfg
  have hlt := rconst_lt cfg
  obtain ⟨h0, h1⟩ := valueAt_near_endpoints hlt
  rw [show 12288 + rconst cfg = 8192 + (4096 + rconst cfg) by omega, valueAt_half_turn_mod,
    valueAt_half_turn_mod, Nat.zero_add, Nat.mod_eq_of_lt (by omega), Nat.mod_eq_of_lt (by omega),
    h0, h1]
  exact ⟨rfl, rfl, rfl, rfl⟩

/-! ### Table positions (R89) -/

theorem forwardAt_zero_frac (cfg : Config) (i : Nat) : forwardAt cfg i 0 = tableValue cfg i := by
  rw [forwardAt, shiftOf_zero_frac, Int.add_zero]

theorem reverseAt_zero_frac (cfg : Config) (i : Nat) :
    reverseAt cfg i 0 = tableValue cfg (i + 1) := by
  rw [reverseAt, shiftOf_zero_frac, Int.sub_zero]

/-- `j` index steps into the second quadrant the table is `j` entries below its top. -/
theorem valueAt_falling_position {cfg : Config} {j : Nat} (hj : j ≤ numIntervals cfg) :
    valueAt cfg ((4096 + j * 2 ^ offIdx cfg + rconst cfg) % 16384) =
      tableValue cfg (numIntervals cfg - j) := by
  rcases hj.lt_or_eq with hlt | rfl
  · have hb := index_step_add_rconst_lt cfg hlt
    rw [Nat.mod_eq_of_lt (by omega), Nat.add_assoc, valueAt_second hb, index_step_div,
      index_step_frac, reverseAt_zero_frac,
      show numIntervals cfg - 1 - j + 1 = numIntervals cfg - j by omega]
  · obtain ⟨-, -, hhalf, -⟩ := valueAt_quadrant_starts cfg
    rw [Nat.sub_self, tableValue_zero, numIntervals, ← quadrant_eq_steps, hhalf]

/-- `i` index steps into the first quadrant, up to its end, the value is entry `i`. -/
theorem valueAt_rising_position {cfg : Config} {i : Nat} (hi : i ≤ numIntervals cfg) :
    valueAt cfg ((i * 2 ^ offIdx cfg + rconst cfg) % 16384) = tableValue cfg i := by
  rcases hi.lt_or_eq with hlt | rfl
  · have hb := index_step_add_rconst_lt cfg hlt
    rw [Nat.mod_eq_of_lt (by omega), valueAt_first hb, index_step_div, index_step_frac,
      forwardAt_zero_frac]
  · obtain ⟨-, hquarter, -, -⟩ := valueAt_quadrant_starts cfg
    rw [tableValue_top, numIntervals, ← quadrant_eq_steps, hquarter]

/-! ### The mirror about a quarter turn (R85) -/

theorem reverseAt_sub_forwardAt (cfg : Config) (i f g : Nat) :
    reverseAt cfg i f - forwardAt cfg i g =
      deltaOf (tableValue cfg i) (tableValue cfg (i + 1)) -
        shiftOf cfg (tableValue cfg i) (tableValue cfg (i + 1)) f -
        shiftOf cfg (tableValue cfg i) (tableValue cfg (i + 1)) g := by
  rw [reverseAt, forwardAt, deltaOf]
  ring

/-- At a table position both sides read the same entry. -/
theorem valueAt_mirror_position {cfg : Config} (h : offInterp cfg = 0) {i : Nat}
    (hi : i ≤ numIntervals cfg) :
    valueAt cfg (4096 + i * 2 ^ offIdx cfg) = valueAt cfg (4096 - i * 2 ^ offIdx cfg) := by
  have hle : i * 2 ^ offIdx cfg ≤ 4096 := quadrant_eq_steps cfg ▸ Nat.mul_le_mul_right _ hi
  have hfall := valueAt_falling_position hi
  have hrise := valueAt_rising_position (Nat.sub_le (numIntervals cfg) i)
  rw [Nat.sub_mul, numIntervals, ← quadrant_eq_steps] at hrise
  rw [rconst_of_offInterp_eq_zero h, Nat.mod_eq_of_lt (by omega)] at hfall hrise
  exact hfall.trans hrise.symm

/-- Between two table positions both sides read the same samples, at opposite fractions. -/
theorem valueAt_mirror_between {cfg : Config} (h : offInterp cfg = 0) {i f : Nat} (hf0 : 0 < f)
    (hf : f < 2 ^ offIdx cfg) (hle : i * 2 ^ offIdx cfg + f ≤ 4096) :
    valueAt cfg (4096 + (i * 2 ^ offIdx cfg + f)) -
        valueAt cfg (4096 - (i * 2 ^ offIdx cfg + f)) = 0 ∨
      valueAt cfg (4096 + (i * 2 ^ offIdx cfg + f)) -
        valueAt cfg (4096 - (i * 2 ^ offIdx cfg + f)) = 1 := by
  have hN := quadrant_eq_steps cfg
  have hpos : 0 < 2 ^ offIdx cfg := Nat.two_pow_pos _
  have hoff : offIdx cfg = cfg.wInterp := by rw [offIdx_eq, h, Nat.zero_add]
  have hi : i < 2 ^ cfg.wIdx := Nat.lt_of_mul_lt_mul_right (a := 2 ^ offIdx cfg) (by omega)
  obtain ⟨k, hk⟩ := Nat.exists_eq_add_of_lt hi
  have hreflect : numIntervals cfg - 1 - i = k := by rw [numIntervals]; omega
  have hmirror : 4096 - (i * 2 ^ offIdx cfg + f) = 2 ^ offIdx cfg - f + 2 ^ offIdx cfg * k := by
    rw [hN, hk, Nat.add_mul, Nat.add_mul, Nat.mul_comm _ k]
    omega
  obtain ⟨hupIdx, hupFrac⟩ := (Nat.div_mod_unique hpos).2
    ⟨show f + 2 ^ offIdx cfg * i = i * 2 ^ offIdx cfg + f by ring, hf⟩
  obtain ⟨hdownIdx, hdownFrac⟩ := (Nat.div_mod_unique hpos).2 ⟨hmirror.symm, by omega⟩
  rw [valueAt_second (by omega), valueAt_first (by omega), h, pow_zero, Nat.div_one, Nat.div_one,
    ← hoff, hupIdx, hupFrac, hdownIdx, hdownFrac, hreflect, hoff, reverseAt_sub_forwardAt]
  exact shiftOf_opposite _ _ (hoff ▸ hf.le)

theorem valueAt_mirror {cfg : Config} (h : offInterp cfg = 0) {j : Nat} (hj : j ≤ 4096) :
    valueAt cfg (4096 + j) - valueAt cfg (4096 - j) = 0 ∨
      valueAt cfg (4096 + j) - valueAt cfg (4096 - j) = 1 := by
  have hpos : 0 < 2 ^ offIdx cfg := Nat.two_pow_pos _
  obtain ⟨i, f, hf, rfl⟩ : ∃ i f, f < 2 ^ offIdx cfg ∧ j = i * 2 ^ offIdx cfg + f :=
    ⟨_, _, Nat.mod_lt j hpos, (Nat.div_add_mod' j _).symm⟩
  rcases Nat.eq_zero_or_pos f with rfl | hf0
  · have hi : i ≤ numIntervals cfg :=
      Nat.le_of_mul_le_mul_right (quadrant_eq_steps cfg ▸ hj) hpos
    exact .inl (Int.sub_eq_zero_of_eq (valueAt_mirror_position h hi))
  · exact valueAt_mirror_between h hf0 hf hj

/-! ### The obligations -/

/-- Settles O15: rounding carries an angle at most a residual field beyond its arc, where the value
still is the arc's last. -/
theorem sineIsMonotoneOnEachArc : Obligations.SineIsMonotoneOnEachArc := by
  intro s a b hi hr hab hb
  have hlt := rconst_lt s.cfg
  have hres := residual_le s.cfg
  refine ⟨_, _, responds_sine_ofNat hi hr (by omega), responds_sine_ofNat hi hr (by omega), ?_⟩
  rw [bits16_valueAt_toInt, bits16_valueAt_toInt]
  refine ⟨fun hend => ?first, fun hstart hend => ?middle, fun hstart => ?last⟩
  case first =>
    rw [Nat.mod_eq_of_lt (by omega), Nat.mod_eq_of_lt (by omega)]
    exact valueAt_mono_of_rising (by omega) (by omega)
  case middle =>
    rw [Nat.mod_eq_of_lt (by omega), Nat.mod_eq_of_lt (by omega)]
    exact valueAt_anti_of_falling (by omega) (by omega) (by omega)
  case last => exact valueAt_mono_of_last (by omega) (by omega) (by omega)

/-- Settles O14: without residual bits nothing is rounded, and the value mirrors up to 1. -/
theorem sineMirrorsAboutAQuarterTurn : Obligations.SineMirrorsAboutAQuarterTurn := by
  intro s j hi hr hw hj
  have hoff : offInterp s.cfg = 0 := by have := widths_add s.cfg; omega
  refine ⟨_, _, responds_sine_ofNat hi hr (by omega), responds_sine_ofNat hi hr (by omega), ?_⟩
  rw [bits16_valueAt_toInt, bits16_valueAt_toInt, rconst_of_offInterp_eq_zero hoff,
    Nat.mod_eq_of_lt (by omega), Nat.mod_eq_of_lt (by omega)]
  exact valueAt_mirror hoff hj

/-- Settles O13: half a turn carries over the reduction, and it negates the value. -/
theorem sineIsOddAboutHalfATurn : Obligations.SineIsOddAboutHalfATurn := by
  intro s angle hi hr
  refine ⟨_, _, responds_sine_of_ready hi hr _, responds_sine_of_ready hi hr _, ?_⟩
  rw [bits16_valueAt_toInt, bits16_valueAt_toInt, reduceAngle_add_half_turn,
    valueAt_add_half_turn _ (reduceAngle_lt _ _)]

/-- Settles O17: `i` index steps into the first quadrant and `N - i` into the second meet entry `i`,
and half a turn further its negation. -/
theorem sineAtTablePositions : Obligations.SineAtTablePositions := by
  intro s i hi hr hN up down
  have hup : valueAt s.cfg ((up + rconst s.cfg) % 16384) = tableValue s.cfg i :=
    valueAt_rising_position hN
  have hdown : valueAt s.cfg ((0x1000 + down + rconst s.cfg) % 16384) = tableValue s.cfg i :=
    (valueAt_falling_position (Nat.sub_le _ i)).trans
      (congrArg (tableValue s.cfg) (Nat.sub_sub_self hN))
  have hanswer := responds_sine_ofNat_mod hi hr
  refine ⟨_, hi.filled hr i hN, ?first, ?second, ?third, ?fourth⟩
  case first => exact hup ▸ hanswer up
  case second => exact hdown ▸ hanswer (0x1000 + down)
  case third =>
    rw [← hup, ← valueAt_half_turn_mod, ← Nat.add_assoc]
    exact hanswer (0x2000 + up)
  case fourth =>
    rw [← hdown, ← valueAt_half_turn_mod, ← Nat.add_assoc, ← Nat.add_assoc]
    exact hanswer (0x3000 + down)

/-- Settles O12, by the values at the quadrant starts. -/
theorem sineEndpointsAreExact : Obligations.SineEndpointsAreExact := by
  intro s hi hr
  obtain ⟨h0, h1, h2, h3⟩ := valueAt_quadrant_starts s.cfg
  exact ⟨responds_sine_of_value hi hr (by decide) h0, responds_sine_of_value hi hr (by decide) h1,
    responds_sine_of_value hi hr (by decide) h2, responds_sine_of_value hi hr (by decide) h3⟩

/-- Settles O16: SINE reads its operand through the reduction alone, and 0x4000 reduces as 0
does. -/
theorem sineWrapsAtAFullTurn : Obligations.SineWrapsAtAFullTurn := by
  refine ⟨fun s angle => exec_sine_congr ?reduced, fun s hi hr => ?fullTurn⟩
  case reduced => rw [reduceAngle_ofNat_mod, reduceAngle_eq]
  case fullTurn =>
    obtain ⟨h0, -, -, -⟩ := valueAt_quadrant_starts s.cfg
    have hturn : (16384 + rconst s.cfg) % 16384 = (0 + rconst s.cfg) % 16384 := by omega
    exact ⟨responds_sine_of_value hi hr (by decide) (hturn ▸ h0),
      responds_sine_of_value hi hr (by decide) h0⟩

/-- Settles O11: the size is `sizeAt`, which lies between its two samples. -/
theorem sineStaysInRange : Obligations.SineStaysInRange := by
  intro s angle hi hr
  obtain ⟨hlo, hhi⟩ := valueAt_range s.cfg (reduceAngle s.cfg angle)
  obtain ⟨hx1, hx2⟩ := sizeAt_between s.cfg (reduceAngle s.cfg angle)
  refine ⟨_, sizeAt s.cfg (reduceAngle s.cfg angle), responds_sine_of_ready hi hr angle, ?_⟩
  rw [bits16_valueAt_toInt]
  exact ⟨hlo, hhi, sizeAt_nonneg _ _, sizeAt_le _ _, valueAt_eq_or_neg _ _, hx1, hx2⟩

/-- Settles O18, by the range of the reflected index and the entries of a ready table. -/
theorem sineReadsInsideTheTable : Obligations.SineReadsInsideTheTable := by
  intro s angle hi hr ridx
  have hlt : ridx + 1 ≤ numIntervals s.cfg := reduce_ridx_lt s.cfg angle
  have hread := hi.filled hr
  refine ⟨hlt, ⟨_, _, hread ridx (Nat.le_of_succ_le hlt), hread (ridx + 1) hlt⟩, fun hlast => ?_⟩
  have htop : ridx + 1 = numIntervals s.cfg := by rw [numIntervals] at hlt ⊢; omega
  rw [htop, hread _ le_rfl, tableValue_top]

/-- Settles O20: the samples do not fall, and the fraction is below its field's size. -/
theorem interpolatorShiftIsNonNegative : Obligations.InterpolatorShiftIsNonNegative := by
  intro cfg angle r x1 x2
  have hi : r.ridx < numIntervals cfg := reduce_ridx_lt cfg angle
  have hf : r.frac < 2 ^ cfg.wInterp := reduce_frac_lt cfg angle
  have hx : x1 ≤ x2 := tableValue_mono (Nat.le_succ _) hi
  have hd : deltaOf x1 x2 ≤ 32767 := tableValue_sub_le _ hi
  have hd0 : 0 ≤ deltaOf x1 x2 := Int.sub_nonneg.2 hx
  refine ⟨hd0, hd, prodOf_nonneg hd0, prodOf_le_of_nonneg hd0 hd (reduce_frac_le cfg angle),
    fun hIdx hInterp => ?default, shiftOf_nonneg _ hx, shiftOf_le_delta hx hf,
    fun hpos => shiftOf_lt_delta hpos hf⟩
  case default =>
    have hd' : deltaOf x1 x2 ≤ 3212 := tableValue_succ_sub_le hIdx hi
    rw [hInterp] at hf
    exact ⟨hd', prodOf_le_of_nonneg (f := 255) hd0 hd' (by omega)⟩

/-- Settles O19: for any two samples by sizes alone, and for the table's own by the bounds
of O20. -/
theorem interpolatorSignalsFit : Obligations.InterpolatorSignalsFit := by
  refine ⟨fun cfg angle x1 x2 => ?anySamples, fun cfg angle => ?tableSamples⟩
  case anySamples =>
    have hd := abs_deltaOf_le x1 x2
    exact ⟨hd, abs_prodOf_le hd (reduce_frac_le cfg angle),
      abs_shiftOf_le hd (reduce_frac_lt cfg angle)⟩
  case tableSamples =>
    obtain ⟨hd0, hd, hp0, hp, -, hs0, hs, -⟩ := interpolatorShiftIsNonNegative cfg angle
    exact ⟨hd0, hd, hp0, hp.trans_lt (by decide), hs0, hs.trans hd⟩

/-- Settles O9, by the two bits of the quadrant and the two ways to read the table. -/
theorem quadrantsDecodeAndReflect : Obligations.QuadrantsDecodeAndReflect := by
  refine ⟨fun q => ⟨isForward_iff q, isNegative_iff q⟩, fun cfg idx hidx => ?_⟩
  have hlt : idx < numIntervals cfg := by
    have hN := Memory.numIntervals_pos cfg
    rw [numIntervals] at hN ⊢
    omega
  refine ⟨reflect_forward cfg idx, ?reverse, fun fwd => Nat.le_sub_one_of_lt (reflect_lt fwd hlt)⟩
  case reverse =>
    have hN : (numIntervals cfg : Int) = 2 ^ cfg.wIdx := by rw [numIntervals]; push_cast; rfl
    rw [reflect_reverse, ← hN]
    omega

/-- Settles O10: the reducer's fields are the rule's, and the rule's samples are a ready table's. -/
theorem sineFollowsItsRule : Obligations.SineFollowsItsRule := by
  intro s angle hi
  refine ⟨fun hm hr => execSine_of_notReady angle ((notReady_iff s).2 ⟨hm, hr⟩), fun hr => ?_⟩
  intro n off a q idx frac ridx x1 x2 shift s0 r
  have hq : quadrantOf a = q := quadrantOf_reduceAngle s.cfg angle
  have hq4 : q < 4 := hq ▸ bitField_lt a 12 2
  have hfwd : isForward (quadrantOf a) = true ↔ q = 0 ∨ q = 2 := by
    rw [isForward_iff, hq]
    omega
  have hneg : isNegative (quadrantOf a) = true ↔ q = 2 ∨ q = 3 := by
    rw [isNegative_iff, hq]
    omega
  have hridx : (reducedOf s.cfg a).ridx = ridx := if_congr hfwd rfl rfl
  have hsize : sizeAt s.cfg a = s0 := by
    rw [sizeAt, hridx]
    exact if_congr hfwd rfl rfl
  have hvalue : valueAt s.cfg a = r := if_congr hneg (congrArg Neg.neg hsize) hsize
  rw [← hvalue]
  exact responds_sine_of_ready hi hr angle

end Sys2Proof.Machine
end

/-! ## Table access (spec 41_table_access.md): TLOOKUP, TSIZE and TINIT as equations, the two table
modes against each other, and the table against the real sine, rounded and truncated -/

section
namespace Sys2Proof.Machine

/-! ### TINIT by mode (R92, R93) -/

theorem execTinit_of_static {s : State} (hm : s.cfg.tableMode = .static) :
    execTinit s = .next (respond 0#16 s) := by
  simp [execTinit, hm]

theorem execTinit_of_ready {s : State} (hm : s.cfg.tableMode = .generated) (hr : s.ready = true) :
    execTinit s = .next (raiseFault .reinit s) := by
  simp [execTinit, hm, hr]

theorem execTinit_of_unfilled {s : State} (hm : s.cfg.tableMode = .generated)
    (hr : s.ready = false) : execTinit s = .next (respond 0#16 (filledState s)) := by
  simp [execTinit, hm, hr, filledState]

/-! ### TSIZE's response word (R91) -/

theorem tableSize_lt (cfg : Config) : tableSize cfg < 2 ^ 16 := by
  have hw := widths_add cfg
  have hN : 2 ^ cfg.wIdx ≤ 2 ^ 12 := Nat.pow_le_pow_right (by decide) (by omega)
  rw [tableSize, numIntervals]
  omega

/-! ### Two configurations that differ in the table mode alone (R95) -/

section SameWidths
variable {c d : Config} (hIdx : c.wIdx = d.wIdx)
include hIdx

theorem tableValue_congr (i : Nat) : tableValue d i = tableValue c i := by
  rw [tableValue, tableValue, hIdx]

variable (hInterp : c.wInterp = d.wInterp) (hRound : c.roundEn = d.roundEn)
include hInterp hRound

theorem eq_with_tableMode : d = { c with tableMode := d.tableMode } := by
  cases c
  cases d
  simp_all

/-- SINE's value rests on the widths and ROUND_EN, and not on the table mode. -/
theorem sineValue_congr (angle : Arg) :
    valueAt d (reduceAngle d angle) = valueAt c (reduceAngle c angle) := by
  rw [eq_with_tableMode hIdx hInterp hRound]
  rfl

end SameWidths

/-! ### The table formula on the reals (R96) -/

/-- The real counterpart of `quarterSine`, before the rounding. -/
noncomputable def realQuarterSine (k : Nat) : ℝ := 32767 * Real.sin (k * Real.pi / 8192)

/-- Entry `i` of a table of any legal width stands at an angle of the widest one. -/
theorem realQuarterSine_scaled (cfg : Config) (i : Nat) :
    realQuarterSine (i * 2 ^ (12 - cfg.wIdx)) =
      32767 * Real.sin (i * (Real.pi / 2) / 2 ^ cfg.wIdx) := by
  have hw := widths_add cfg
  have hpow : (2 : ℝ) ^ (12 - cfg.wIdx) * 2 ^ cfg.wIdx = 4096 := by
    rw [← pow_add, show 12 - cfg.wIdx + cfg.wIdx = 12 by omega]
    norm_num
  have hangle : ((i * 2 ^ (12 - cfg.wIdx) : Nat) : ℝ) * Real.pi / 8192 =
      i * (Real.pi / 2) / 2 ^ cfg.wIdx := by
    push_cast
    field_simp
    linear_combination 2 * (i : ℝ) * hpow
  rw [realQuarterSine, hangle]

/-- The exact value lies above `quarterSine k - 1/2` by the rest `tieRest k`, to within `10^-10`. -/
theorem realQuarterSine_close {k : Nat} (hk : k ≤ 4096) :
    |realQuarterSine k - quarterSine k - ((tieRest k : ℝ) / 2 ^ 60 - 1 / 2)| ≤ 1 / 10 ^ 10 := by
  have hsin := abs_le.1 (fixSin_close hk)
  have hrest := fixSin_eq_quarterSine k
  rw [realQuarterSine, ← hrest, abs_le]
  constructor <;> linarith

theorem tieMargin_cast_ge : (0.00014 + 1 / 10 ^ 10) * 2 ^ 60 ≤ (tieMargin : ℝ) := by
  norm_num [tieMargin, fixOne]

/-- A rest far from 0 and from 1 keeps the exact value off the ties. -/
theorem realQuarterSine_sub_le {k : Nat} (hk : k ≤ 4096) :
    |realQuarterSine k - quarterSine k| ≤ 1 / 2 - 0.00014 := by
  obtain ⟨hlo, hhi⟩ := tieRest_far hk
  have hclose := abs_le.1 (realQuarterSine_close hk)
  have hmargin := tieMargin_cast_ge
  have hlo' : (tieMargin : ℝ) ≤ tieRest k := by exact_mod_cast hlo
  have hhi' : (tieRest k : ℝ) + tieMargin ≤ fixOne := by exact_mod_cast hhi
  rw [fixOne_cast] at hhi'
  rw [abs_le]
  constructor <;> linarith

/-- A real less than a half away from an integer rounds to it. -/
theorem round_eq_of_abs_sub_lt {y : ℝ} {n : Int} (h : |y - n| < 1 / 2) : round y = n := by
  obtain ⟨hlo, hhi⟩ := abs_lt.1 h
  exact round_eq_iff.2 ⟨by linarith, by linarith⟩

/-! ### The truncated values (R97) -/

theorem fixHalf_cast : ((fixOne / 2 : Nat) : ℝ) = 2 ^ 60 / 2 := by norm_num [fixOne]

/-- A rest above a half puts the exact value above the rounded one, so truncating gives it too. -/
theorem floor_realQuarterSine_of_above {k : Nat} (hk : k ≤ 4096)
    (h : fixOne / 2 + tieMargin ≤ tieRest k) : ⌊realQuarterSine k⌋ = quarterSine k := by
  have hnear := abs_le.1 (realQuarterSine_sub_le hk)
  have hclose := abs_le.1 (realQuarterSine_close hk)
  have hmargin := tieMargin_cast_ge
  have h' : ((fixOne / 2 : Nat) : ℝ) + tieMargin ≤ tieRest k := by exact_mod_cast h
  rw [fixHalf_cast] at h'
  rw [Int.floor_eq_iff, Int.cast_natCast]
  constructor <;> linarith

/-- A rest below a half puts the exact value below the rounded one: truncating loses 1. -/
theorem floor_realQuarterSine_of_below {k : Nat} (hk : k ≤ 4096)
    (h : tieRest k + tieMargin ≤ fixOne / 2) : ⌊realQuarterSine k⌋ = quarterSine k - 1 := by
  have hnear := abs_le.1 (realQuarterSine_sub_le hk)
  have hclose := abs_le.1 (realQuarterSine_close hk)
  have hmargin := tieMargin_cast_ge
  have h' : (tieRest k : ℝ) + tieMargin ≤ (fixOne / 2 : Nat) := by exact_mod_cast h
  rw [fixHalf_cast] at h'
  rw [Int.floor_eq_iff]
  push_cast
  constructor <;> linarith

theorem floor_realQuarterSine_zero : ⌊realQuarterSine 0⌋ = quarterSine 0 := by
  simp [realQuarterSine, quarterSine_zero]

theorem floor_realQuarterSine_top : ⌊realQuarterSine 4096⌋ = quarterSine 4096 := by
  have hangle : ((4096 : Nat) : ℝ) * Real.pi / 8192 = Real.pi / 2 := by
    push_cast
    ring
  rw [realQuarterSine, hangle, Real.sin_pi_div_two, quarterSine_top, mul_one]
  exact Int.floor_natCast 32767

theorem default_rests_below :
    ∀ i ∈ [1, 2, 3, 8, 10, 11, 12], tieRest (i * 256) + tieMargin ≤ fixOne / 2 := by
  decide +kernel

theorem default_rests_above :
    ∀ i ∈ [4, 5, 6, 7, 9, 13, 14, 15], fixOne / 2 + tieMargin ≤ tieRest (i * 256) := by
  decide +kernel

/-- What truncating loses at each entry of the default table: the two ends are exact, and between them
the rest lies on one side of a half, away from it. -/
theorem quarterSine_sub_floor {i : Nat} (hi : i ≤ 16) :
    (quarterSine (i * 256) : Int) - ⌊realQuarterSine (i * 256)⌋ =
      if i = 1 ∨ i = 2 ∨ i = 3 ∨ i = 8 ∨ i = 10 ∨ i = 11 ∨ i = 12 then 1 else 0 := by
  have hk : i * 256 ≤ 4096 := by omega
  split_ifs with hlisted
  · rw [floor_realQuarterSine_of_below hk (default_rests_below i (by simpa using hlisted))]
    omega
  · have hother : i = 0 ∨ i = 16 ∨ i ∈ [4, 5, 6, 7, 9, 13, 14, 15] := by
      simp only [List.mem_cons, List.not_mem_nil, or_false]
      omega
    rw [Int.sub_eq_zero]
    rcases hother with rfl | rfl | hmem
    · exact floor_realQuarterSine_zero.symm
    · exact floor_realQuarterSine_top.symm
    · exact (floor_realQuarterSine_of_above hk (default_rests_above i hmem)).symm

theorem realQuarterSine_default (i : Nat) :
    realQuarterSine (i * 256) = 32767 * Real.sin (i * (Real.pi / 2) / 16) := by
  have h := realQuarterSine_scaled Config.default i
  norm_num [Config.default] at h
  exact h

/-! ### The obligations -/

/-- Settles O21: the range check first, then the entry that the invariant gives a ready table. -/
theorem tlookupFollowsItsRule : Obligations.TlookupFollowsItsRule := by
  intro s index hi
  refine ⟨fun hout => execTlookup_of_range hout, fun hin hm hr => ?unfilled, fun hin hr => ?ready⟩
  case unfilled => exact execTlookup_of_notReady hin ((notReady_iff s).2 ⟨hm, hr⟩)
  case ready => exact ⟨hi.filled hr _ hin, responds_tlookup_of_ready hi hr hin⟩

/-- Settles O24, by the two cases of TINIT in generated mode. -/
theorem tinitInGeneratedModeFillsOnce : Obligations.TinitInGeneratedModeFillsOnce := by
  intro s hi hm
  refine ⟨fun hr => ?first, fun hr => execTinit_of_ready hm hr⟩
  case first =>
    exact ⟨_, execTinit_of_unfilled hm hr, fun _ hin => filledState_tableRead hi hin,
      rfl, rfl, rfl, rfl, rfl, rfl⟩

/-- Settles O25: both tables are ready, and what a ready table answers rests on the widths and
ROUND_EN alone. -/
theorem bothModesGiveTheSameAnswers : Obligations.BothModesGiveTheSameAnswers := by
  intro s t hs ht hstatic _ htr hIdx hInterp hRound
  have hsr : s.ready = true := hs.staticReady hstatic
  have hN : numIntervals t.cfg = numIntervals s.cfg := congrArg (2 ^ ·) hIdx.symm
  have hvalue := tableValue_congr hIdx
  refine ⟨fun i hin => ⟨hs.filled hsr i hin, ?entry⟩, fun angle => ?sine, fun index hin => ?tlookup,
    fun index hout => ⟨execTlookup_of_range hout, execTlookup_of_range (hN.trans_lt hout)⟩⟩
  case entry => exact hvalue i ▸ ht.filled htr i (hin.trans_eq hN.symm)
  case sine =>
    exact ⟨_, responds_sine_of_ready hs hsr angle,
      sineValue_congr hIdx hInterp hRound angle ▸ responds_sine_of_ready ht htr angle⟩
  case tlookup =>
    exact ⟨_, responds_tlookup_of_ready hs hsr hin,
      hvalue _ ▸ responds_tlookup_of_ready ht htr (hin.trans_eq hN.symm)⟩

/-- Settles O26: the entry is a quarter sine, which is less than a half away from the exact value. -/
theorem tableIsTheRoundedSine : Obligations.TableIsTheRoundedSine := by
  intro cfg i hin y
  have hy : y = realQuarterSine (i * 2 ^ (12 - cfg.wIdx)) := (realQuarterSine_scaled cfg i).symm
  have hnear : |y - tableValue cfg i| ≤ 1 / 2 - 0.00014 := by
    rw [hy, tableValue, Int.cast_natCast]
    exact realQuarterSine_sub_le (scaled_le hin)
  have hround : round y = tableValue cfg i :=
    round_eq_of_abs_sub_lt (hnear.trans_lt (by norm_num))
  refine ⟨hround.symm, hnear, tableValue_nonneg cfg i, tableValue_le hin, ?first, ?last⟩
  case first =>
    rintro rfl
    exact tableValue_zero cfg
  case last =>
    rintro rfl
    exact tableValue_top cfg

/-- Settles O28: what truncating loses at each entry, and at entry 1 a ready table has not lost it. -/
theorem truncatingTableIsNotTheTable : Obligations.TruncatingTableIsNotTheTable := by
  have hdiff (cfg : Config) (i : Nat) (h4 : cfg.wIdx = 4) (hi : i ≤ 16) :
      tableValue cfg i - ⌊(32767 * Real.sin (i * (Real.pi / 2) / 16) : ℝ)⌋ =
        if i = 1 ∨ i = 2 ∨ i = 3 ∨ i = 8 ∨ i = 10 ∨ i = 11 ∨ i = 12 then 1 else 0 := by
    rw [tableValue_of_wIdx_four h4, ← realQuarterSine_default]
    exact quarterSine_sub_floor hi
  refine ⟨hdiff, fun s hs hr h4 => ⟨1, by decide, fun hread => ?_⟩⟩
  have hone := hdiff s.cfg 1 h4 (by decide)
  have hfull := hs.filled hr 1 (Memory.numIntervals_pos s.cfg)
  have heq := Option.some.inj (hfull.symm.trans hread)
  rw [heq, Int.sub_self] at hone
  simp at hone

/-- Settles O22: `N + 1` is far below 2^16. -/
theorem tsizeFollowsItsRule : Obligations.TsizeFollowsItsRule :=
  fun s => ⟨execTsize_eq s, Nat.mod_eq_of_lt (tableSize_lt s.cfg)⟩

/-- Settles O23, by the rule of TINIT in static mode. -/
theorem tinitInStaticModeDoesNothing : Obligations.TinitInStaticModeDoesNothing :=
  fun _ => execTinit_of_static

end Sys2Proof.Machine
end

/-! ## Faults (spec 60_exceptions.md): the illegal words, the fault of each request as a function of
the state, and the order of the faults -/

section
namespace Sys2Proof

/-! ### The illegal words (R101) -/

/-- R101 on the word's number: reserved bits, or operand bits of a request that has no operand. -/
theorem decode_error_iff {w : Word} : (∃ e, decode w = .error e) ↔
    w.toNat / 2 ^ 18 ≠ 0 ∨ 2 ≤ w.toNat / 2 ^ 16 % 4 ∧ w.toNat % 2 ^ 16 ≠ 0 := by
  rw [decode_eq_arith]
  split_ifs with hrsvd hsine hlookup harg hsize
  · exact iff_of_true ⟨_, rfl⟩ (.inl hrsvd)
  · exact iff_of_false (by simp) (by omega)
  · exact iff_of_false (by simp) (by omega)
  · exact iff_of_true ⟨_, rfl⟩ (.inr ⟨by omega, harg⟩)
  · exact iff_of_false (by simp) (by omega)
  · exact iff_of_false (by simp) (by omega)

end Sys2Proof

namespace Sys2Proof.Machine

/-- A legal request never raises RSVD_ENC, whatever the table holds. -/
theorem exec_fault_ne_rsvdEnc (i : Instr) {s : State} (hf : s.fault = none) :
    ∃ t, exec i s = .next t ∧ t.fault ≠ some .rsvdEnc := by
  cases i with
  | sine angle =>
    rcases execSine_cases angle s with h | ⟨_, _, -, -, -, h⟩
    · exact ⟨_, h, by simp⟩
    · exact ⟨_, h, by simp [hf]⟩
  | tlookup index =>
    rcases execTlookup_cases index s with ⟨-, h⟩ | ⟨-, h⟩ | ⟨_, -, -, -, h⟩
    · exact ⟨_, h, by simp⟩
    · exact ⟨_, h, by simp⟩
    · exact ⟨_, h, by simp [hf]⟩
  | tsize => exact ⟨_, execTsize_eq s, by simp [hf]⟩
  | tinit =>
    rcases execTinit_cases s with ⟨-, h⟩ | ⟨-, -, h⟩ | ⟨-, -, h⟩
    · exact ⟨_, h, by simp [hf]⟩
    · exact ⟨_, h, by simp⟩
    · exact ⟨_, h, by simp [filledState, hf]⟩

/-! ### The fault of a request (R102 to R104) -/

/-- The fault the rules give a legal request; `exec_fault_eq` ties it to `exec`. -/
def requestFault (i : Instr) (s : State) : Option FaultCode :=
  match i with
  | .sine _ =>
    if s.cfg.tableMode = .generated ∧ s.ready = false then some .notReady else none
  | .tlookup index =>
    if numIntervals s.cfg < index.toNat then some .lookupRange
    else if s.cfg.tableMode = .generated ∧ s.ready = false then some .notReady else none
  | .tsize => none
  | .tinit =>
    if s.cfg.tableMode = .generated ∧ s.ready = true then some .reinit else none

/-- In static mode the table is always ready, so a table that is not unfilled is filled. -/
theorem State.Inv.ready_of_not_unfilled {s : State} (hi : s.Inv)
    (h : ¬(s.cfg.tableMode = .generated ∧ s.ready = false)) : s.ready = true := by
  cases hm : s.cfg.tableMode with
  | static => exact hi.staticReady hm
  | generated => exact Bool.eq_true_of_not_eq_false fun hr => h ⟨hm, hr⟩

/-- In a state of the invariant the fault a request leaves is the one the rules give it: the reads
of a ready table never fail. -/
theorem exec_fault_eq (i : Instr) {s : State} (hi : s.Inv) (hf : s.fault = none) :
    ∃ t, exec i s = .next t ∧ t.fault = requestFault i s := by
  cases i with
  | sine angle =>
    rw [requestFault]
    split_ifs with hu
    · exact ⟨_, execSine_of_notReady angle ((notReady_iff s).2 hu), rfl⟩
    · exact ⟨_, responds_sine_of_ready hi (hi.ready_of_not_unfilled hu) angle, hf⟩
  | tlookup index =>
    rw [requestFault]
    split_ifs with hout hu
    · exact ⟨_, execTlookup_of_range hout, rfl⟩
    · exact ⟨_, execTlookup_of_notReady (Nat.not_lt.1 hout) ((notReady_iff s).2 hu), rfl⟩
    · exact ⟨_, responds_tlookup_of_ready hi (hi.ready_of_not_unfilled hu) (Nat.not_lt.1 hout), hf⟩
  | tsize => exact ⟨_, execTsize_eq s, hf⟩
  | tinit =>
    rw [requestFault]
    rcases execTinit_cases s with ⟨hm, h⟩ | ⟨hm, hr, h⟩ | ⟨hm, hr, h⟩
    · exact ⟨_, h, by simp [hm, hf]⟩
    · exact ⟨_, h, by simp [hm, hr]⟩
    · exact ⟨_, h, by simp [filledState, hr, hf]⟩

section Causes
variable (i : Instr) (s : State)

theorem requestFault_ne_rsvdEnc : requestFault i s ≠ some .rsvdEnc := by
  cases i with
  | tsize => simp [requestFault]
  | _ =>
    rw [requestFault]
    split_ifs <;> simp

theorem requestFault_eq_lookupRange : requestFault i s = some .lookupRange ↔
    ∃ k : Arg, i = .tlookup k ∧ numIntervals s.cfg < k.toNat := by
  cases i with
  | tlookup index =>
    rw [requestFault]
    split_ifs with hout <;> simp [hout]
  | _ => simp [requestFault]

theorem requestFault_eq_notReady : requestFault i s = some .notReady ↔
    s.cfg.tableMode = .generated ∧ s.ready = false ∧
      ((∃ a, i = .sine a) ∨ ∃ k : Arg, i = .tlookup k ∧ k.toNat ≤ numIntervals s.cfg) := by
  cases i with
  | sine angle => simp [requestFault]
  | tlookup index =>
    rw [requestFault]
    split_ifs with hout hu
    · simp [hout]
    · simp [hu, Nat.not_lt.1 hout]
    · exact iff_of_false (by simp) fun ⟨hm, hr, _⟩ => hu ⟨hm, hr⟩
  | tsize => simp [requestFault]
  | tinit => simp [requestFault]

theorem requestFault_eq_reinit : requestFault i s = some .reinit ↔
    i = .tinit ∧ s.cfg.tableMode = .generated ∧ s.ready = true := by
  cases i with
  | tlookup index =>
    rw [requestFault]
    split_ifs <;> simp
  | _ => simp [requestFault]

end Causes

/-! ### The obligations -/

/-- Settles O7: decode refuses exactly the words of R101, and no decoded request raises RSVD_ENC. -/
theorem illegalWordsRaiseRsvdEnc : Obligations.IllegalWordsRaiseRsvdEnc := by
  intro s w rest ha
  rw [step_of_accepts ha, ← decode_error_iff]
  constructor
  · rintro ⟨e, he⟩
    exact perform_of_error _ he
  · intro hlegal
    rcases decode_cases w with ⟨i, hd, -⟩ | herror
    · rw [perform_of_ok _ hd]
      exact exec_fault_ne_rsvdEnc i ha.1
    · exact absurd herror hlegal

/-- Settles O42: the fault a request leaves is `requestFault`, whose values each have one cause. -/
theorem faultsHaveExactlyTheirCauses : Obligations.FaultsHaveExactlyTheirCauses := by
  intro i s hi hf
  obtain ⟨t, hnext, hfault⟩ := exec_fault_eq i hi hf
  rw [← numIntervals]
  refine ⟨t, hnext, ?_⟩
  rw [hfault]
  exact ⟨requestFault_ne_rsvdEnc i s, requestFault_eq_lookupRange i s,
    requestFault_eq_notReady i s, requestFault_eq_reinit i s⟩

/-- Settles O43: decode comes first, and `requestFault` tests the faults of a request in R105's
order. -/
theorem faultsHaveTheirPriority : Obligations.FaultsHaveTheirPriority := by
  intro s w rest hi ha unfilled
  rw [step_of_accepts ha]
  cases hd : decode w with
  | error e => exact ⟨_, perform_of_error _ hd, rfl⟩
  | ok i =>
    rw [perform_of_ok _ hd]
    obtain ⟨t, hnext, hfault⟩ := exec_fault_eq i (taken_inv hi rest) ha.1
    refine ⟨t, hnext, hfault.trans ?_⟩
    cases i <;> rfl

end Sys2Proof.Machine
end

/-! ## Reset and hazards (spec 70_reset_and_hazards.md): what a reset sets, what a request rests on,
and the two modes from reset on -/

section
namespace Sys2Proof.Machine

/-! ### The reset step (R115) -/

/-- A reset that comes next, or is the first one a faulted block meets, is the step taken. -/
theorem step_of_reset {s : State} {pre rest : List HostInput}
    (hin : s.inputs = pre ++ .reset :: rest) (hpre : ∀ x ∈ pre, x ≠ .reset)
    (hnone : s.fault = none → pre = []) : step s = .next (takeReset (s.taken rest)) := by
  cases hf : s.fault with
  | none =>
    obtain rfl := hnone hf
    simp [step, serve, hf, hin, State.taken]
  | some c => simp [step, serve, hf, hin, awaitReset_append hpre, State.taken]

/-! ### The count of a request (R21) -/

/-- A request advances rp by the number of responses it gives. -/
theorem exec_rp_eq_add_length {i : Instr} {s t : State} {out : List Response}
    (h : exec i s = .next t) (hout : t.responses = s.responses ++ out) :
    t.rp = s.rp + out.length := by
  rcases exec_cases i s with ⟨c, e⟩ | ⟨v, e⟩ | ⟨-, -, -, e⟩
  all_goals obtain rfl := Host.Outcome.next.inj (h.symm.trans e)
  · obtain rfl : out = [] := by simpa using hout
    rfl
  · obtain rfl : [v] = out := List.append_cancel_left hout
    rfl
  · obtain rfl : [0#16] = out := List.append_cancel_left hout
    rfl

/-! ### The obligations -/

/-- Settles O37: waiting, a reset and an accepted word each leave the configuration alone. -/
theorem configurationNeverChanges : Obligations.ConfigurationNeverChanges :=
  fun _ _ => step_keeps_cfg

/-- Settles O40: `exec` does the same in both states, and rp follows the responses in each. -/
theorem answersDependOnTheTableStateOnly : Obligations.AnswersDependOnTheTableStateOnly := by
  intro i s s' t hc hm hr hf hf' h
  obtain ⟨t', out, h', hfault, htable, hready, hout, hout'⟩ :=
    exec_next_agree hc.symm hm.symm hr.symm (hf'.trans hf.symm) h
  exact ⟨t', out, h', hfault.symm, htable.symm, hready.symm, hout, hout',
    exec_rp_eq_add_length h hout, exec_rp_eq_add_length h' hout'⟩

/-- Settles O46: the step taken is the reset, after which READY and the invariant say what every
entry reads as. -/
theorem resetSetsTheStateFromAnywhere : Obligations.ResetSetsTheStateFromAnywhere := by
  intro s pre rest hin hpre hnone
  have hinv : (takeReset (s.taken rest)).Inv := takeReset_inv _
  refine ⟨_, step_of_reset hin hpre hnone, rfl, rfl, rfl, rfl, rfl, fun hm => ?static,
    fun hm => ?generated⟩
  case static =>
    have hr : (takeReset (s.taken rest)).ready = true := resetOf_ready_eq_true.2 hm
    exact ⟨hr, hinv.filled hr⟩
  case generated =>
    have hr : (takeReset (s.taken rest)).ready = false := resetOf_ready_eq_false.2 hm
    exact ⟨hr, hinv.unfilled hr⟩

/-- Settles O48: in static mode the table is ready at reset, so that both reads are served; TSIZE
never reads the table, and TINIT does nothing. -/
theorem staticBlockServesFromReset : Obligations.StaticBlockServesFromReset := by
  intro cfg i hm hin
  have hready : (State.resetOf cfg).ready = true := resetOf_ready_eq_true.2 hm
  cases i with
  | sine angle => exact ⟨_, responds_sine_of_ready (resetOf_inv cfg) hready angle⟩
  | tlookup index =>
    exact ⟨_, responds_tlookup_of_ready (resetOf_inv cfg) hready (of_decide_eq_true hin)⟩
  | tsize => exact ⟨_, execTsize_eq _⟩
  | tinit => exact ⟨_, execTinit_of_static hm⟩

/-- Settles O49: in generated mode READY is 0 at reset, and the first TINIT leads to a filled table,
which keeps the invariant and is ready. -/
theorem generatedBlockNeedsOneTinit : Obligations.GeneratedBlockNeedsOneTinit := by
  refine ⟨fun cfg hm => ?generated, fun cfg hm => execTinit_of_static hm⟩
  case generated =>
    intro s
    have hunfilled : s.ready = false := resetOf_ready_eq_false.2 hm
    have hnotReady : s.notReady = true := (notReady_iff s).2 ⟨hm, hunfilled⟩
    have hinv : (respond 0#16 (filledState s)).Inv :=
      respond_inv (filledState_inv (resetOf_inv cfg)) _
    exact ⟨execTsize_eq s, fun angle => execSine_of_notReady angle hnotReady,
      fun index hin => execTlookup_of_notReady hin hnotReady,
      _, execTinit_of_unfilled hm hunfilled, rfl,
      fun angle => ⟨_, responds_sine_of_ready hinv rfl angle⟩,
      fun index hin => ⟨_, responds_tlookup_of_ready hinv rfl hin⟩,
      execTinit_of_ready hm rfl⟩

end Sys2Proof.Machine
end

/-! ## Frames, stops and runs (spec 30_encoding.md R50 and R57, 60_exceptions.md R99): what a
request leaves unchanged, where the machine stops, and how a run over a sequence of words ends -/

section
namespace Sys2Proof.Machine

/-! ### The steps that take no word -/

theorem step_of_idle {s : State} (hf : s.fault = none) (hin : s.inputs = []) :
    step s = .next s := by
  simp [step, serve, hf, hin]

/-- A faulted block with no reset to come has no step (R99). -/
theorem step_of_quiescent {s : State} {c : FaultCode} (hf : s.fault = some c)
    (hin : ∀ x ∈ s.inputs, x ≠ .reset) : step s = .fault (.quiescent c) := by
  simp [step, serve, hf, awaitReset_eq_none.2 hin]

theorem map_request_ne_reset (ws : List Word) : ∀ x ∈ ws.map HostInput.request, x ≠ .reset := by
  simp

/-! ### The entries TINIT does not fill (R93) -/

theorem filledState_tableRead_outside (s : State) {k : Nat} (h : numIntervals s.cfg < k) :
    (filledState s).tableRead k = s.tableRead k :=
  Memory.read_fill_outside s.table h

/-! ### Runs (R57, R124) -/

/-- A run goes on from the state that its first `m` steps lead to. -/
theorem run_add {M : Host.Core} {s u : M.State} {m : Nat} (n : Nat) (h : M.run m s = .next u) :
    M.run (m + n) s = M.run n u := by
  induction m generalizing s with
  | zero =>
    obtain rfl : s = u := Host.Outcome.next.inj h
    rw [Nat.zero_add]
  | succ m ih =>
    rw [Nat.succ_add]
    cases hs : M.step s with
    | next t =>
      rw [run_of_next _ hs] at h ⊢
      exact ih h
    | fault r => simp [Host.Core.run, hs] at h
    | refused r => simp [Host.Core.run, hs] at h

/-- The states `st` of a run, with `s` before them. -/
def statesFrom (s : State) (st : Nat → State) (n : Nat) : State :=
  match n with
  | 0 => s
  | k + 1 => st k

/-- Word `n` of `ws` is a request that, performed in `st n`, gives response `n` of `out` and leads
to `st (n + 1)`. -/
def AnswersWord (ws : List Word) (out : List Response) (st : Nat → State) (n : Nat) : Prop :=
  ∃ (w : Word) (i : Instr) (v : Response),
    ws[n]? = some w ∧ decode w = .ok i ∧ out[n]? = some v ∧
    exec i ((st n).taken ((ws.drop (n + 1)).map .request)) = .next (st (n + 1)) ∧
    (st (n + 1)).fault = none ∧ (st (n + 1)).responses = (st n).responses ++ [v]

/-- The run from `s` answers the first words of `ws` with `out`, and the other words are still
pending in the state it leads to. -/
structure AnswersInOrder (s : State) (ws : List Word) (st : Nat → State) (out : List Response) :
    Prop where
  length_le : out.length ≤ ws.length
  start : st 0 = s
  runs : ∀ n ≤ out.length, core.run n s = .next (st n)
  answers : ∀ n < out.length, AnswersWord ws out st n
  fault : (st out.length).fault = none
  inputs : (st out.length).inputs = (ws.drop out.length).map .request
  responses : (st out.length).responses = s.responses ++ out

theorem AnswersInOrder.nothing {s : State} {ws : List Word} (hf : s.fault = none)
    (hin : s.inputs = ws.map .request) : AnswersInOrder s ws (fun _ => s) [] where
  length_le := Nat.zero_le _
  start := rfl
  runs n hn := by
    obtain rfl : n = 0 := Nat.le_zero.1 hn
    rfl
  answers _ hn := absurd hn (Nat.not_lt_zero _)
  fault := hf
  inputs := hin
  responses := (List.append_nil _).symm

/-- A word answered before a run is its first answer. -/
theorem AnswersInOrder.cons {s t : State} {w : Word} {ws : List Word} {i : Instr} {v : Response}
    {st : Nat → State} {out : List Response} (hd : decode w = .ok i)
    (he : exec i (s.taken (ws.map .request)) = .next t) (hstep : step s = .next t)
    (hf : t.fault = none) (hr : t.responses = s.responses ++ [v])
    (h : AnswersInOrder t ws st out) :
    AnswersInOrder s (w :: ws) (statesFrom s st) (v :: out) where
  length_le := Nat.succ_le_succ h.length_le
  start := rfl
  runs n hn := by
    cases n with
    | zero => rfl
    | succ n => exact (run_of_next (M := core) n hstep).trans (h.runs n (Nat.le_of_succ_le_succ hn))
  answers n hn := by
    cases n with
    | zero =>
      obtain rfl := h.start
      exact ⟨w, i, v, rfl, hd, rfl, he, hf, hr⟩
    | succ n => exact h.answers n (Nat.lt_of_succ_lt_succ hn)
  fault := h.fault
  inputs := h.inputs
  responses := by
    rw [List.append_cons, ← hr]
    exact h.responses

/-- In the state `u` the word `w`, with the words `rest` behind it, raises `c`: at decode, or as the
request it decodes to. -/
def FaultsOn (u : State) (w : Word) (rest : List Word) (c : FaultCode) : Prop :=
  ((∃ e, decode w = .error e ∧ c = .rsvdEnc) ∨
      ∃ i, decode w = .ok i ∧ Raises (u.taken (rest.map .request)) i c) ∧
    step u = .next (raiseFault c (u.taken (rest.map .request)))

/-- A run answers every word in order, or every word up to one that faults. -/
theorem answersInOrder_until_fault (s : State) (ws : List Word) (hf : s.fault = none)
    (hin : s.inputs = ws.map .request) :
    ∃ (st : Nat → State) (out : List Response), AnswersInOrder s ws st out ∧
      (out.length = ws.length ∨ ∃ w c, ws[out.length]? = some w ∧
        FaultsOn (st out.length) w (ws.drop (out.length + 1)) c) := by
  induction ws generalizing s with
  | nil => exact ⟨_, [], .nothing hf hin, .inl rfl⟩
  | cons w ws ih =>
    have ha : Accepts s w (ws.map .request) := ⟨hf, hin⟩
    rcases step_accepts_cases ha with ⟨c, hstep, hcause⟩ | ⟨i, t, v, hd, he, hstep, htf, hti, htr⟩
    · exact ⟨_, [], .nothing hf hin, .inr ⟨w, c, rfl, hcause, hstep⟩⟩
    · obtain ⟨st, out, hrun, hend⟩ := ih t htf hti
      exact ⟨_, v :: out, hrun.cons hd he hstep htf htr, hend.imp_left (congrArg Nat.succ)⟩

/-- After the word that faults, a block to which only words are presented has no step. -/
theorem run_after_fault {u : State} {w : Word} {rest : List Word} {c : FaultCode}
    (h : FaultsOn u w rest c) (n : Nat) : core.run (2 + n) u = .fault (.quiescent c) := by
  obtain ⟨-, hstep⟩ := h
  have hstop : step (raiseFault c (u.taken (rest.map .request))) = .fault (.quiescent c) :=
    step_of_quiescent rfl (map_request_ne_reset rest)
  rw [Nat.add_comm]
  exact (run_of_next (M := core) (n + 1) hstep).trans (run_of_fault (M := core) n hstop)

/-! ### The obligations -/

/-- Settles O45, by induction over the words: what the answered words lead to is the end of the run,
or a state in which the next word faults, after which no step exists. -/
theorem runsAnswerInOrderUntilAFault : Obligations.RunsAnswerInOrderUntilAFault := by
  intro s ws hf hin
  obtain ⟨st, out, hrun, hend⟩ := answersInOrder_until_fault s ws hf hin
  have hlast : core.run out.length s = .next (st out.length) := hrun.runs _ le_rfl
  refine ⟨out.length, st, out, hrun.length_le, rfl, hrun.start, hrun.runs, hrun.answers, ?_⟩
  rcases hend with hall | ⟨w, c, hw, hfault⟩
  · have hdone : (st out.length).inputs = [] := by
      rw [hrun.inputs, hall, List.drop_length, List.map_nil]
    exact .inl ⟨hall, decide_eq_true ⟨hdone, hrun.fault⟩,
      congrArg₂ Observation.mk hrun.responses hrun.fault⟩
  · have ⟨hcause, hstep⟩ := hfault
    refine .inr ⟨w, c, _, hw, hcause, ?step, rfl, ?notEnded, ?observed, fun n => ?stopped⟩
    case step => exact (run_add 1 hlast).trans (run_of_next (M := core) 0 hstep)
    case notEnded => simp [State.endedSuccessfully]
    case observed => simp [State.observation, hrun.responses]
    case stopped =>
      rw [Nat.add_assoc, run_add _ hlast]
      exact run_after_fault hfault n

/-- Settles O35: a request other than TINIT raises a fault or responds, and neither touches the
table. -/
theorem readingRequestsLeaveTheTable : Obligations.ReadingRequestsLeaveTheTable := by
  intro i s t hi h
  rcases exec_cases i s with ⟨c, e⟩ | ⟨v, e⟩ | ⟨rfl, -⟩
  · obtain rfl := Host.Outcome.next.inj (h.symm.trans e)
    exact ⟨rfl, rfl, rfl, rfl, fun _ => rfl, .inr ⟨c, rfl⟩⟩
  · obtain rfl := Host.Outcome.next.inj (h.symm.trans e)
    exact ⟨rfl, rfl, rfl, rfl, fun _ => rfl, .inl ⟨rfl, rfl, v, rfl⟩⟩
  · exact absurd rfl hi

/-- Settles O36, by the three cases of TINIT: only the first in generated mode writes the table, and
none of what it writes lies above N. -/
theorem tinitLeavesAllButTheTable : Obligations.TinitLeavesAllButTheTable := by
  intro s t h
  rcases execTinit_cases s with ⟨-, e⟩ | ⟨-, -, e⟩ | ⟨hm, hr, e⟩
  all_goals obtain rfl := Host.Outcome.next.inj (h.symm.trans e)
  · exact ⟨rfl, rfl, fun _ _ => rfl, fun _ => ⟨rfl, rfl, fun _ => rfl⟩, .inl ⟨rfl, rfl, rfl⟩⟩
  · exact ⟨rfl, rfl, fun _ _ => rfl, fun _ => ⟨rfl, rfl, fun _ => rfl⟩, .inr rfl⟩
  · exact ⟨rfl, rfl, fun k hk => filledState_tableRead_outside s hk,
      fun hleft => absurd hleft (by simp [hm, hr]), .inl ⟨rfl, rfl, rfl⟩⟩

/-- Settles O41: of what a step on an accepted word can leave, FAULT is set only where a fault was
raised; and a faulted block neither waits nor accepts a word. -/
theorem faultsArePreciseAndSticky : Obligations.FaultsArePreciseAndSticky := by
  refine ⟨fun s t w rest c ha h hc => ?precise, fun s c => step_of_quiescent,
    fun s t c hf h => ?sticky⟩
  case precise =>
    have hnone : s.fault ≠ some c := by simp [ha.1]
    rcases next_of_accepts ha h with ⟨d, rfl⟩ | ⟨v, rfl⟩ | ⟨-, -, -, rfl⟩
    · obtain rfl : d = c := Option.some.inj hc
      rfl
    · exact absurd hc hnone
    · exact absurd hc hnone
  case sticky =>
    have hfaulted : s.fault ≠ none := by simp [hf]
    rcases step_cases h with ⟨hn, -⟩ | ⟨pre, rest, hin, hpre, -, rfl⟩ |
      ⟨_, _, _, ⟨hn, -⟩, -⟩ | ⟨_, _, _, ⟨hn, -⟩, -⟩
    · exact absurd hn hfaulted
    · exact ⟨pre, rest, hin, hpre, rfl⟩
    · exact absurd hn hfaulted
    · exact absurd hn hfaulted

/-- Settles O44: a block that is not faulted waits, resets or takes a word, and a faulted one takes
the first reset to come, or has no step. -/
theorem onlyAFaultedBlockStops : Obligations.OnlyAFaultedBlockStops := by
  intro s
  cases hf : s.fault with
  | none =>
    refine .inl ?_
    cases hin : s.inputs with
    | nil => exact ⟨_, step_of_idle hf hin⟩
    | cons x rest =>
      cases x with
      | reset => exact ⟨_, step_of_reset (pre := []) hin (by simp) fun _ => rfl⟩
      | request w =>
        rcases step_accepts_cases ⟨hf, hin⟩ with ⟨c, h, -⟩ | ⟨_, t, _, -, -, h, -⟩
        · exact ⟨_, h⟩
        · exact ⟨t, h⟩
  | some c =>
    cases haw : awaitReset s.inputs with
    | none =>
      have hin := awaitReset_eq_none.1 haw
      exact .inr ⟨c, rfl, hin, step_of_quiescent hf hin⟩
    | some rest =>
      obtain ⟨pre, hpre, hin⟩ := awaitReset_eq_some haw
      exact .inl ⟨_, step_of_reset hin hpre fun hn => by simp [hf] at hn⟩

/-- Settles O47, by the idle case of a step. -/
theorem idleBlockKeepsItsState : Obligations.IdleBlockKeepsItsState :=
  fun _ => step_of_idle

end Sys2Proof.Machine
end
